-- ==== Sys2Proof/Word.lean ====
section
/-! DEFINITION. The word types of the SHA-1 Streaming Engine: bits, words, and the two fixed register arrays
(spec 00_scope.md R6, R8, R9, R10). -/

namespace Sys2Proof

/-- A byte (R10). -/
abbrev Byte := BitVec 8

/-- A 32-bit word; `+` on it is addition modulo 2^32 (R6 `WORD_BITS`, R9). -/
abbrev Word := BitVec 32

/-- The 64-bit bit counter (R6 `BITCNT_BITS`, R25). -/
abbrev Count := BitVec 64

/-- Five 32-bit digest words, `H[0]` to `H[4]` (R6 `DIGEST_WORDS`, R21). -/
abbrev Digest := Vector Word 5

/-- The 64 bytes of one block (R6 `BLOCK_BYTES`, R23). -/
abbrev Block := Vector Byte 64

/-- The 16 words of the rolling message schedule (R6 `SCHEDULE_WINDOW`, R37). -/
abbrev ScheduleWindow := Vector Word 16

end Sys2Proof
end

