-- ==== Sys2Proof/Types.lean ====
section
/-! DEFINITION. The named things of the host interface and of the compression datapath, as plain data:
transactions and their responses, the events a host or the platform can bring, rejection codes, decoded commands,
encodings, working variables. -/

namespace Sys2Proof

/-- The rejection codes of 60_exceptions.md R200. The reserved codes 7 to 15 are "never produced", so they have
no constructor (U13: "A model's `errcode` ranges over 0..6"). -/
inductive ErrCode where
  /-- 0: no rejection since the last `INIT` or reset -/
  | none
  /-- 1 -/
  | illegalCmd
  /-- 2 -/
  | updateAfterFinish
  /-- 3 -/
  | alreadyFinished
  /-- 4 -/
  | resultBeforeFinish
  /-- 5 -/
  | lengthOverflow
  /-- 6 -/
  | illegalAccess
  deriving DecidableEq, Repr

/-- What `DecodeCmd` answers (R74): `INIT | UPDATE(nb) | FINISH | Illegal`. -/
inductive Cmd where
  | init
  | update (nb : BitVec 3)
  | finish
  | illegal
  deriving DecidableEq, Repr

/-- The access size of a transaction: 1, 2 or 4 bytes (R51), and the reserved code `SZ = 11`, which "never occurs
on a real bus" and is rejected if a model presents it (R76). -/
inductive Size where
  | byte
  | half
  | word
  | reserved
  deriving DecidableEq, Repr

/-- A host transaction `T = (kind, off, size, wdata)` (R51): `off` is the byte offset in the 64-byte window, and
only a write has write data. -/
inductive Transaction where
  | read (size : Size) (off : BitVec 6)
  | write (size : Size) (off : BitVec 6) (wdata : Word)
  deriving DecidableEq, Repr

/-- The engine's one response to a transaction (R51). Read data is `some v` for a read and `none` for a write
("writes carry no data"); a rejected read returns read data too (R202). -/
inductive Response where
  | okay (rdata : Option Word)
  | error (rdata : Option Word)
  deriving DecidableEq, Repr

/-- What the world outside can bring to the engine, one event a step: a transaction (R51), a reset between two
transactions (R230), or a reset that arrives while a transaction is being performed (R231). -/
inductive HostEvent where
  | transact (t : Transaction)
  | reset
  | resetDuring (t : Transaction)
  deriving DecidableEq, Repr

/-- The bits of an instruction in one of the two formats of 30_encoding.md: a command word (R70), or a 9-bit
transaction descriptor (R76) with the write data beside it (0 for a read, which has none). -/
inductive Encoding where
  | cmd (word : Word)
  | bus (desc : BitVec 9) (wdata : Word)
  deriving DecidableEq, Repr

/-- The working variables `a, b, c, d, e` of one compression (R36). -/
structure Working where
  a : Word
  b : Word
  c : Word
  d : Word
  e : Word
  deriving DecidableEq, Repr, Inhabited

/-- The registers of the compression datapath: the working variables (R36), the 16-word rolling window `Wwin`
(R37) and the 7-bit round counter `t` (R38). -/
structure Datapath where
  vars : Working
  wwin : ScheduleWindow
  t : BitVec 7
  deriving DecidableEq, Repr

end Sys2Proof
end

