-- ==== Sys2Proof/Syntax.lean ====
section
/-! DEFINITION. The instructions: one constructor for each of the 14 rows of spec/opcode_table.json, the three
commands (format CMD) and the eleven accepted transactions (format BUS). -/

namespace Sys2Proof

/-- An instruction of the engine: a command a `CMD` write can carry (30_encoding.md R70 to R74) or a host
transaction on the register window (30_encoding.md R76, R77). -/
inductive Instr where
  /-- `INIT` (R100) -/
  | init
  /-- `UPDATE nb`: the 3-bit field `NB` of the command word (R72, R104) -/
  | update (nb : BitVec 3)
  /-- `FINISH` (R112) -/
  | finish
  /-- `WR CMD v`: the command word `v` (R141) -/
  | wrCmd (v : Word)
  /-- `WR DATA v` (R142) -/
  | wrData (v : Word)
  /-- `RD DATA` (R143) -/
  | rdData
  /-- `RD STATUS` (R144) -/
  | rdStatus
  /-- `RD BITCNT_LO` (R145) -/
  | rdBitcntLo
  /-- `RD BITCNT_HI` (R146) -/
  | rdBitcntHi
  /-- `RD DIGEST0` (R148) -/
  | rdDigest0
  /-- `RD DIGEST1` (R148) -/
  | rdDigest1
  /-- `RD DIGEST2` (R148) -/
  | rdDigest2
  /-- `RD DIGEST3` (R148) -/
  | rdDigest3
  /-- `RD DIGEST4` (R148) -/
  | rdDigest4
  deriving DecidableEq, Repr

end Sys2Proof
end

