-- ==== Sys2Proof/WellFormed.lean ====
section
/-! DEFINITION. Which instructions an encoding can stand for: the operand checks of 30_encoding.md. -/

namespace Sys2Proof

/-- `NB` is one of the legal values 0 to 4; 5, 6 and 7 are reserved (R72). -/
def nbLegal (nb : BitVec 3) : Bool := decide (nb.toNat ≤ 4)

/-- The operand check of each instruction. Only `UPDATE` has an operand with reserved values (R72): the command
word of `WR CMD` may be any 32-bit word, since an illegal one is a transaction too, and is rejected (R141). -/
def Instr.wf : Instr → Bool
  | .init => true
  | .update nb => nbLegal nb
  | .finish => true
  | .wrCmd _ => true
  | .wrData _ => true
  | .rdData => true
  | .rdStatus => true
  | .rdBitcntLo => true
  | .rdBitcntHi => true
  | .rdDigest0 => true
  | .rdDigest1 => true
  | .rdDigest2 => true
  | .rdDigest3 => true
  | .rdDigest4 => true

end Sys2Proof
end

