-- ==== Sys2Proof/Decode.lean ====
section
/-! DEFINITION. The decoder of 30_encoding.md, total on every command word and every transaction descriptor,
rejecting by name (R74, R77, R78), and after it the encoder, written from the same tables. -/

namespace Sys2Proof

/-! ## Command words (format CMD) -/

/-- Field `OP`, bits `[3:0]` (R70). -/
def cmdOp (c : Word) : BitVec 4 := c.extractLsb' 0 4

/-- Field `NB`, bits `[6:4]` (R70, R72). -/
def cmdNb (c : Word) : BitVec 3 := c.extractLsb' 4 3

/-- The reserved bits `[31:7]` (R70, R73). -/
def cmdReserved (c : Word) : BitVec 25 := c.extractLsb' 7 25

/-- `DecodeCmd` (R74). -/
def decodeCmd (c : Word) : Cmd :=
  if cmdReserved c ≠ 0 then .illegal
  else if cmdOp c = 0x1 ∧ cmdNb c = 0 then .init
  else if cmdOp c = 0x2 ∧ nbLegal (cmdNb c) = true then .update (cmdNb c)
  else if cmdOp c = 0x3 ∧ cmdNb c = 0 then .finish
  else .illegal

/-- The instruction a decoded command is, or the rejection's name (R71, R78). -/
def Cmd.toInstr : Cmd → Except ErrCode Instr
  | .init => .ok .init
  | .update nb => .ok (.update nb)
  | .finish => .ok .finish
  | .illegal => .error .illegalCmd

/-! ## Transaction descriptors (format BUS) -/

/-- Field `SZ` (R76). -/
def Size.code : Size → BitVec 2
  | .byte => 0b00
  | .half => 0b01
  | .word => 0b10
  | .reserved => 0b11

/-- The size a field `SZ` stands for (R76). -/
def Size.ofCode (sz : BitVec 2) : Size :=
  if sz = 0b00 then .byte
  else if sz = 0b01 then .half
  else if sz = 0b10 then .word
  else .reserved

/-- The 9-bit descriptor `desc` = `Wr`, `SZ[1:0]`, `OFF[5:0]` from high to low (R76). -/
def Transaction.desc : Transaction → BitVec 9
  | .read size off => (0#1 ++ size.code) ++ off
  | .write size off _ => (1#1 ++ size.code) ++ off

/-- The write's operand; a read has none (R76), and nothing that decodes to a read looks at this 0. -/
def Transaction.wdata : Transaction → Word
  | .read _ _ => 0
  | .write _ _ v => v

/-- Whether the transaction is a read. -/
def Transaction.isRead : Transaction → Bool
  | .read _ _ => true
  | .write _ _ _ => false

/-- The transaction with this descriptor and this write data (R76). -/
def transactionOfDesc (desc : BitVec 9) (wdata : Word) : Transaction :=
  let size := Size.ofCode (desc.extractLsb' 6 2)
  let off := desc.extractLsb' 0 6
  if desc.getLsbD 8 then .write size off wdata else .read size off

/-- The eleven descriptors the engine accepts (R77, R140); every other one is rejected with `ILLEGAL_ACCESS`
(R150). -/
def decodeDesc (desc : BitVec 9) (wdata : Word) : Except ErrCode Instr :=
  if desc = 0x180 then .ok (.wrCmd wdata)
  else if desc = 0x184 then .ok (.wrData wdata)
  else if desc = 0x084 then .ok .rdData
  else if desc = 0x088 then .ok .rdStatus
  else if desc = 0x08C then .ok .rdBitcntLo
  else if desc = 0x090 then .ok .rdBitcntHi
  else if desc = 0x094 then .ok .rdDigest0
  else if desc = 0x098 then .ok .rdDigest1
  else if desc = 0x09C then .ok .rdDigest2
  else if desc = 0x0A0 then .ok .rdDigest3
  else if desc = 0x0A4 then .ok .rdDigest4
  else .error .illegalAccess

/-- The first level of decoding, which `step` does to every transaction (30_encoding.md, opening: "A decoder
first decodes the descriptor (rule R76). If the descriptor is a write of `CMD`, it then decodes the command word
(rule R74)"; that second level is in `Machine.execWrCmd`). -/
def decodeTransaction (t : Transaction) : Except ErrCode Instr := decodeDesc t.desc t.wdata

/-! ## Both formats -/

/-- The instruction these bits stand for, or the name of the rejection. -/
def decode : Encoding → Except ErrCode Instr
  | .cmd c => (decodeCmd c).toInstr
  | .bus desc wdata => decodeDesc desc wdata

/-- How an instruction's bits are numbered by spec/opcode_table.json. A row of 32 bits is a command word. A row of
the 9-bit descriptor is counted in whole bytes: bits `[8:0]` the descriptor, bits `[15:9]` zero, and the write data,
the operand word of `WR CMD` and `WR DATA`, in bits `[47:16]` (the model's own layout of the operand, log entry 5).
`none` where the number has a bit outside that. -/
def tableEncoding (nbits w : Nat) : Option Encoding :=
  if 2 ^ nbits ≤ w then none
  else if nbits = 32 then some (.cmd (BitVec.ofNat 32 w))
  else if w % 2 ^ 16 < 2 ^ 9 ∧ w < 2 ^ 48 then
    some (.bus (BitVec.ofNat 9 w) (BitVec.ofNat 32 (w / 2 ^ 16)))
  else none

/-- The transaction that presents these bits to the engine: a descriptor stands for its transaction, and a command
word is presented by the 32-bit write of it to `CMD` (R70). -/
def Encoding.toTransaction : Encoding → Transaction
  | .cmd c => .write .word 0 c
  | .bus desc wdata => transactionOfDesc desc wdata

/-- The instruction the decoder reads from an instruction's bits, numbered as spec/opcode_table.json numbers
them. -/
def decodeTableWord (nbits w : Nat) : Option Instr :=
  match tableEncoding nbits w with
  | none => none
  | some e =>
    match decode e with
    | .ok i => some i
    | .error _ => none

/-! ## The encoder -/

/-- A command word from its fields (R70): reserved bits 0, `NB`, `OP`. -/
def cmdWord (nb : BitVec 3) (op : BitVec 4) : Word := (0#25 ++ nb) ++ op

/-- The bits of an instruction: the command words of R74 and the descriptors of R77. -/
def encode : Instr → Encoding
  | .init => .cmd (cmdWord 0 0x1)
  | .update nb => .cmd (cmdWord nb 0x2)
  | .finish => .cmd (cmdWord 0 0x3)
  | .wrCmd v => .bus 0x180 v
  | .wrData v => .bus 0x184 v
  | .rdData => .bus 0x084 0
  | .rdStatus => .bus 0x088 0
  | .rdBitcntLo => .bus 0x08C 0
  | .rdBitcntHi => .bus 0x090 0
  | .rdDigest0 => .bus 0x094 0
  | .rdDigest1 => .bus 0x098 0
  | .rdDigest2 => .bus 0x09C 0
  | .rdDigest3 => .bus 0x0A0 0
  | .rdDigest4 => .bus 0x0A4 0

/-- The one encoding that stands for all that a decoder takes alike: a read has no operand (R76), so the word
beside a read's descriptor is no part of it and counts as 0. -/
def Encoding.canonical : Encoding → Encoding
  | .cmd c => .cmd c
  | .bus desc wdata => .bus desc (if desc.getLsbD 8 then wdata else 0)

end Sys2Proof
end

