-- ==== Sys2Proof/Config.lean ====
section
/-! DEFINITION. What the platform or the implementation fixes (spec 93_implementation_defined.md, treatment
`parameter`) and the free values (treatment `any value`). No constant here that stands for an open value has a
body, so no proof can see what it is. -/

namespace Sys2Proof.Config

/-- Which 64-byte slot of the host's address space the platform gives the register window (R6, R56, U14: OPEN). -/
opaque engineBaseSlot : Nat

/-- `ENGINE_BASE`, a multiple of 64 (R6). -/
def engineBase : Nat := 64 * engineBaseSlot

/-- What the platform's address decode makes of a host address outside the 64 bytes at `ENGINE_BASE`: the byte offset
of the window it is an alias of, or `none` where it is no address of the engine (R56, U15: OPEN; log entry 7). -/
opaque windowAlias : Nat → Option (BitVec 6)

/-- Whether the platform lets a host master, in the mode it is in, reach the window; masters are numbered (R56, R209,
U15: OPEN; log entry 7). -/
opaque masterAdmitted : Nat → Bool

/-- `WINDOW_BYTES` (R6, R31). -/
def windowBytes : Nat := 64

/-- `T_COMP`, cycles per compression (R6, R240, U16: OPEN). Informative: `step` does not read it. -/
opaque tComp : Nat

/-- FREE VALUE. What a 32-bit register of the compression datapath (`a`..`e`, `Wwin[0..15]`) holds outside a
compression: "unspecified" (R36, R37, R40, U7). First argument: the number of the draw, second: the register. -/
opaque freeDatapathWord : Nat → Nat → BitVec 32

/-- FREE VALUE. What the 7-bit round counter `t` holds outside a compression (R38, R40, U7), by number of the
draw. -/
opaque freeRoundCounter : Nat → BitVec 7

end Sys2Proof.Config
end

