-- ==== Sys2Proof/Machine/Constants.lean ====
section
/-! DEFINITION. The fixed logic of the engine: initial values, round constants, the zero block, and the numbers of
the error codes. No transaction can write any of them (spec 20_memory.md R61). -/

namespace Sys2Proof.Machine

/-- The initial value of the digest register file, loaded by `INIT` and by reset (R22). -/
def iv : Digest := #v[0x67452301, 0xEFCDAB89, 0x98BADCFE, 0x10325476, 0xC3D2E1F0]

/-- 64 zero bytes (R40, and the "fresh, fully-zeroed block" of R113). -/
def zeroBlock : Block := Vector.replicate 64 0x00

/-- The round constant `K_t` (R176). -/
def roundConstant (t : Nat) : Word :=
  if t ≤ 19 then 0x5A827999
  else if t ≤ 39 then 0x6ED9EBA1
  else if t ≤ 59 then 0x8F1BBCDC
  else 0xCA62C1D6

/-- The number of an error code (R200). -/
def errNumber : ErrCode → BitVec 4
  | .none => 0
  | .illegalCmd => 1
  | .updateAfterFinish => 2
  | .alreadyFinished => 3
  | .resultBeforeFinish => 4
  | .lengthOverflow => 5
  | .illegalAccess => 6

end Sys2Proof.Machine
end

