-- ==== Sys2Proof/Machine/State.lean ====
section
/-! DEFINITION. The state of the machine, plain data, and its value after reset (spec 10_state.md R20 to R40). -/

namespace Sys2Proof.Machine

/-- The engine's persistent state: "exactly this record" (R20), field by field under the spec's own names. -/
structure Engine where
  /-- the block buffer, 64 bytes (R23) -/
  buf : Block
  /-- the count of valid bytes in `buf`, 0 to 63 (R24) -/
  fill : Fin 64
  /-- total message bits absorbed (R25) -/
  bitcnt : Count
  /-- the digest register file (R21) -/
  H : Digest
  /-- the phase: false is `ABSORBING`, true is `FINISHED` (R28) -/
  finished : Bool
  /-- the sticky error flag (R29) -/
  err : Bool
  /-- the code of the first rejection since the last `INIT` or reset (R29) -/
  errcode : ErrCode
  /-- the `DATA` holding register (R30) -/
  data : Word
  deriving DecidableEq, Repr

/-- The whole machine: the engine's persistent state, the registers of its compression datapath, and the interface
to the world outside. -/
structure State extends Engine where
  /-- `a`..`e`, `Wwin`, `t` (R36 to R38), which no rule reads between compressions (R39) -/
  datapath : Datapath
  /-- the MODEL's own: how many free values have been drawn for `datapath` (log entry 2) -/
  draws : Nat
  /-- the MODEL's own record of the interface: the response of the last transaction performed (R51, R57), `none`
  where none has been since reset (log entry 3) -/
  response : Option Response
  /-- the MODEL's own record of the interface: what the world outside will bring, oldest first, in the order the
  engine will accept it (R57, R58; log entry 3) -/
  pending : List HostEvent
  deriving DecidableEq, Repr

/-- Why the machine could stop with a fault. It has no constructor, so no step can fault: "This spec has no `fault`
item: no behaviour stops the engine" (93_implementation_defined.md, treatments). Every misuse is a rejection, which
is a next state (R202). Safe. -/
inductive Fault where
  deriving DecidableEq, Repr

/-- Why an instruction could be refused. -/
inductive Refusal where
  /-- An instruction without a meaning, by its mnemonic. Every instruction has its meaning, so nothing raises it.
  Safe. -/
  | notModelled (mnemonic : String)
  deriving DecidableEq, Repr

/-- The engine's persistent state after reset (R40, R230). -/
def Engine.reset : Engine where
  buf := zeroBlock
  fill := 0
  bitcnt := 0
  H := iv
  finished := false
  err := false
  errcode := .none
  data := 0

/-- The datapath after power-on: the spec says "unspecified (not observable)" (R40). DESIGN CHOICE: all zero (log
entry 1). -/
def Datapath.powerOn : Datapath where
  vars := ⟨0, 0, 0, 0, 0⟩
  wwin := Vector.replicate 16 0
  t := 0

/-- The machine right after reset (R40, R230), with nothing offered by the world outside and no free value drawn
yet (DESIGN CHOICE, log entries 1 to 3). -/
def State.reset : State where
  toEngine := Engine.reset
  datapath := Datapath.powerOn
  draws := 0
  response := none
  pending := []

end Sys2Proof.Machine
end

