-- ==== Sys2Proof/Machine/Operands.lean ====
section
/-! DEFINITION. The operand forms and every byte-to-word conversion: big-endian, without a switch (spec R10, R52),
and the byte selection of `UPDATE` (R75, R105). -/

namespace Sys2Proof.Machine

/-- `BE32(b0, b1, b2, b3)`: `b0` is the most significant byte (R10). -/
def be32 (b0 b1 b2 b3 : Byte) : Word := ((b0 ++ b1) ++ b2) ++ b3

/-- `BEbytes32(w)` (R10). -/
def beBytes32 (w : Word) : List Byte :=
  [w.extractLsb' 24 8, w.extractLsb' 16 8, w.extractLsb' 8 8, w.extractLsb' 0 8]

/-- `v[31:0]` of a 64-bit value (R8, R34). -/
def lowHalf (v : Count) : Word := v.extractLsb' 0 32

/-- `v[63:32]` of a 64-bit value (R8, R34). -/
def highHalf (v : Count) : Word := v.extractLsb' 32 32

/-- `BEbytes64(v)` (R10). -/
def beBytes64 (v : Count) : List Byte := beBytes32 (highHalf v) ++ beBytes32 (lowHalf v)

/-- Byte `k` of an `UPDATE`, `data[31-8k : 24-8k]`, for `k` from 0 to 3 (R105). -/
def dataByte (data : Word) (k : Nat) : Byte := data.extractLsb' (24 - 8 * k) 8

/-- The message bytes of `UPDATE nb`, in message order (R104, R105). -/
def updateBytes (data : Word) (nb : Nat) : List Byte := (List.range nb).map (dataByte data)

/-- The digest's 20 bytes: `H[0]` first, most significant byte first within each register (R149). -/
def serialize (h : Digest) : List Byte :=
  beBytes32 h[0] ++ beBytes32 h[1] ++ beBytes32 h[2] ++ beBytes32 h[3] ++ beBytes32 h[4]

/-- Byte `i` of a block; every use has `i ≤ 63`. -/
def byteAt (b : Block) (i : Nat) : Byte := if h : i < 64 then b[i] else 0

end Sys2Proof.Machine
end

