-- ==== Sys2Proof/Machine/Compression.lean ====
section
/-! DEFINITION. The compression function `Compress` (spec 42_compression.md R170 to R180), and beside it the
iterative datapath with the 16-word rolling window that the hardware runs (R173, R181). The meanings call
`compress`, the normative form. -/

namespace Sys2Proof.Machine

/-- `rotl(x, n)` for `0 < n < 32` (R9). -/
def rotl (x : Word) (n : Nat) : Word := (x <<< n) ||| (x >>> (32 - n))

/-! ## Word reinterpreter and message schedule -/

/-- `W[j]` for `j` from 0 to 15: bytes `4j` to `4j+3`, big-endian (R171). -/
def blockWord (b : Block) (j : Nat) : Word :=
  be32 (byteAt b (4 * j)) (byteAt b (4 * j + 1)) (byteAt b (4 * j + 2)) (byteAt b (4 * j + 3))

/-- `W[0..15]` (R171). -/
def reinterpret (b : Block) : List Word := (List.range 16).map (blockWord b)

/-- The schedule word from the four earlier words `W[t-3]`, `W[t-8]`, `W[t-14]`, `W[t-16]` (R172). -/
def scheduleWord (w3 w8 w14 w16 : Word) : Word := rotl (((w3 ^^^ w8) ^^^ w14) ^^^ w16) 1

/-- Extends a schedule by `n` words. The list holds the newest word first, so `W[t-k]` is its entry `k - 1`
(R172). -/
def extendSchedule : Nat → List Word → List Word
  | 0, ws => ws
  | n + 1, ws =>
    extendSchedule n (scheduleWord (ws.getD 2 0) (ws.getD 7 0) (ws.getD 13 0) (ws.getD 15 0) :: ws)

/-- `W[0..79]` of a block (R171, R172). -/
def schedule (b : Block) : List Word := (extendSchedule 64 (reinterpret b).reverse).reverse

/-! ## Round functions and rounds -/

/-- `CH` (R175). -/
def ch (b c d : Word) : Word := (b &&& c) ||| (~~~b &&& d)

/-- `PARITY` (R175). -/
def parity (b c d : Word) : Word := (b ^^^ c) ^^^ d

/-- `MAJ` (R175). -/
def maj (b c d : Word) : Word := ((b &&& c) ||| (b &&& d)) ||| (c &&& d)

/-- `f_t` (R175). -/
def roundFunction (t : Nat) (b c d : Word) : Word :=
  if t ≤ 19 then ch b c d
  else if t ≤ 39 then parity b c d
  else if t ≤ 59 then maj b c d
  else parity b c d

/-- `Round(t)` with the schedule word `w` (R177): all five variables at once, from the old values. -/
def roundStep (t : Nat) (w : Word) (v : Working) : Working where
  a := (((rotl v.a 5 + roundFunction t v.b v.c v.d) + v.e) + w) + roundConstant t
  b := v.a
  c := rotl v.b 30
  d := v.c
  e := v.d

/-- `Round(t)`, `Round(t+1)`, ... in order, one for each schedule word of the list (R178). -/
def runRounds : Nat → List Word → Working → Working
  | _, [], v => v
  | t, w :: ws, v => runRounds (t + 1) ws (roundStep t w v)

/-- The working variables "initialized from `registers`" (R178). -/
def loadWorking (h : Digest) : Working := ⟨h[0], h[1], h[2], h[3], h[4]⟩

/-- The final addition (R179). -/
def addWorking (h : Digest) (v : Working) : Digest := #v[h[0] + v.a, h[1] + v.b, h[2] + v.c, h[3] + v.d, h[4] + v.e]

/-- `Compress(Hin, B)` (R170, R180). -/
def compress (h : Digest) (b : Block) : Digest := addWorking h (runRounds 0 (schedule b) (loadWorking h))

/-! ## The iterative datapath -/

/-- The datapath before round 0: working variables loaded (R178), `Wwin[j] <- W[j]` (R173), `t = 0` (R38). -/
def loadDatapath (h : Digest) (b : Block) : Datapath where
  vars := loadWorking h
  wwin := Vector.ofFn fun j : Fin 16 => blockWord b j.val
  t := 0

/-- Entry `i mod 16` of the rolling window. -/
def windowAt (w : ScheduleWindow) (i : Nat) : Word := w[i % 16]'(Nat.mod_lt _ (by decide))

/-- The window at round `t`: entry `t mod 16` is renewed when `t >= 16` (R173). -/
def turnWindow (t : Nat) (w : ScheduleWindow) : ScheduleWindow :=
  if 16 ≤ t then
    w.set (t % 16)
      (scheduleWord (windowAt w (t + 13)) (windowAt w (t + 8)) (windowAt w (t + 2)) (windowAt w t))
      (Nat.mod_lt _ (by decide))
  else w

/-- One clock of the iterative form: `Round(t)` with the schedule word formed in the same cycle (R173, R181). -/
def clockDatapath (d : Datapath) : Datapath :=
  let t := d.t.toNat
  let w := turnWindow t d.wwin
  { vars := roundStep t (windowAt w t) d.vars, wwin := w, t := d.t + 1 }

/-- `n` clocks. -/
def runDatapath : Nat → Datapath → Datapath
  | 0, d => d
  | n + 1, d => runDatapath n (clockDatapath d)

/-- `Compress` as the iterative datapath computes it: 80 rounds and the final addition (R181). -/
def compressIterative (h : Digest) (b : Block) : Digest :=
  addWorking h (runDatapath 80 (loadDatapath h b)).vars

end Sys2Proof.Machine
end

