-- ==== Sys2Proof/Machine/Flags.lean ====
section
/-! DEFINITION. The flags and checks: the `STATUS` word (spec R32), the phase (R28), the length limit (R108). -/

namespace Sys2Proof.Machine

/-- A flag as one bit. -/
def flagBit (b : Bool) : BitVec 1 := if b then 1 else 0

/-- `STATUS`: from high to low the fields `FILL`, `ERRCODE`, two reserved bits, `ERR` and `FINISHED`, padded with
zeros to 32 bits (R32, R144). -/
def statusWord (e : Engine) : Word :=
  ((((0#18 ++ BitVec.ofNat 6 e.fill.val) ++ errNumber e.errcode) ++ 0#2) ++ flagBit e.err) ++ flagBit e.finished

/-- `bitcnt + 8 * nb > 2^64 - 1`, "the sum taken as an exact integer" (R108). -/
def lengthOverflows (bitcnt : Count) (nb : Nat) : Bool := decide (bitcnt.toNat + 8 * nb > 2 ^ 64 - 1)

end Sys2Proof.Machine
end

