-- ==== Sys2Proof/Machine/Ops.lean ====
section
/-! DEFINITION. The operations the meanings share: responding, rejecting (the engine's one exception, spec R202),
compressing the buffer, appending a byte (R106), the padding controller (R113), and reset (R230, R231). -/

namespace Sys2Proof.Machine

/-! ## Writing one piece of state (R11, `buf[i] <- v` and the unqualified assignments) -/

/-- Writes the block buffer. -/
def setBuf (b : Block) (s : State) : State := { s with buf := b }

/-- `fill <- n`. -/
def setFill (n : Fin 64) (s : State) : State := { s with fill := n }

/-- `bitcnt <- v`. -/
def setBitcnt (v : Count) (s : State) : State := { s with bitcnt := v }

/-- Writes the digest register file. -/
def setDigest (h : Digest) (s : State) : State := { s with H := h }

/-- `finished <- b`. -/
def setFinished (b : Bool) (s : State) : State := { s with finished := b }

/-- `data <- v`. -/
def setData (v : Word) (s : State) : State := { s with data := v }

/-- Replaces the engine's whole persistent state. -/
def setEngine (e : Engine) (s : State) : State := { s with toEngine := e }

/-! ## Responses and rejections -/

/-- Ends a transaction with a response (R11, R51). -/
def respond (r : Response) (s : State) : State := { s with response := some r }

/-- `return OKAY` of a write: no data (R51). -/
def okayWrite (s : State) : State := respond (.okay none) s

/-- `return OKAY(v)` of a read (R11). -/
def okayRead (v : Word) (s : State) : State := respond (.okay (some v)) s

/-- The bookkeeping of a rejection: "the first error since the last clear wins" (R29, R202). -/
def recordError (code : ErrCode) (e : Engine) : Engine :=
  if e.err then e else { e with err := true, errcode := code }

/-- The data of an `ERROR` response: "a rejected read returns data `0x00000000`" (R202), a write has none (R51). -/
def rejectData (isRead : Bool) : Option Word := if isRead then some 0x00000000 else none

/-- `raise Reject(code)`: TAKING AN EXCEPTION on this hardware (R11, R202). It records the code, responds `ERROR`
and changes nothing else. "No return from a rejection exists or is needed" (R205), so no operation stands beside it:
`err` and `errcode` are cleared by `INIT` and by reset only (R206). -/
def reject (code : ErrCode) (isRead : Bool) (s : State) : State :=
  respond (.error (rejectData isRead)) (setEngine (recordError code s.toEngine) s)

/-! ## Compressing the buffer -/

/-- What the datapath's registers hold once a compression is over, or after `INIT` or a reset: "unspecified"
(R36 to R38, R40), a free value for each register, by number of the draw. -/
def freeDatapath (draw : Nat) : Datapath where
  vars :=
    ⟨Config.freeDatapathWord draw 0, Config.freeDatapathWord draw 1, Config.freeDatapathWord draw 2,
      Config.freeDatapathWord draw 3, Config.freeDatapathWord draw 4⟩
  wwin := Vector.ofFn fun j : Fin 16 => Config.freeDatapathWord draw (5 + j.val)
  t := Config.freeRoundCounter draw

/-- Leaves the datapath's registers at fresh free values. -/
def releaseDatapath (s : State) : State := { s with datapath := freeDatapath s.draws, draws := s.draws + 1 }

/-- `H <- Compress(H, buf)` (R106, R113): "`Compress` does not change the block buffer" (R170). -/
def compressBuffer (s : State) : State := releaseDatapath (setDigest (compress s.H s.buf) s)

/-! ## Absorbing -/

/-- `AppendByte(x)` (R106): the block is compressed as soon as it is full. -/
def appendByte (x : Byte) (s : State) : State :=
  if h : s.fill.val + 1 < 64 then setFill ⟨s.fill.val + 1, h⟩ (setBuf (s.buf.set s.fill x) s)
  else setFill 0 (compressBuffer (setBuf (s.buf.set s.fill x) s))

/-- `AppendByte` of each byte in order (R104). -/
def appendBytes : List Byte → State → State
  | [], s => s
  | x :: xs, s => appendBytes xs (appendByte x s)

/-! ## The padding controller -/

/-- `for i in p..p+n-1: buf[i] <- 0x00`. -/
def zeroRun : Nat → Nat → Block → Block
  | _, 0, b => b
  | p, n + 1, b => zeroRun (p + 1) n (b.setIfInBounds p 0x00)

/-- `for i in p..q: buf[i] <- 0x00`, nothing when `p > q` (R12, R113). -/
def zeroFill (p q : Nat) (b : Block) : Block := zeroRun p (q + 1 - p) b

/-- Writes the bytes of the list at positions `p`, `p+1`, ... -/
def putBytes : Nat → List Byte → Block → Block
  | _, [], b => b
  | p, x :: xs, b => putBytes (p + 1) xs (b.setIfInBounds p x)

/-- Steps 3 and 4 of `Pad()` on the block `b`, from position `p`, with the message length `len` in bits: zero fill up to
offset 56, then the length field, high word at 56 and low word at 60 (R113). -/
def lastBlock (len : Count) (p : Nat) (b : Block) : Block :=
  putBytes 60 (beBytes32 (lowHalf len)) (putBytes 56 (beBytes32 (highHalf len)) (zeroFill p 55 b))

/-- Steps 3 to 5 of `Pad()`: the last block, and the final compression (R113). -/
def padLastBlock (len : Count) (p : Nat) (s : State) : State := compressBuffer (setBuf (lastBlock len p s.buf) s)

/-- Step 2 of `Pad()` when fewer than 8 bytes remain: zero-fill the rest of the block from position `p`, compress it,
and start "a fresh, fully-zeroed block" (R113). -/
def padFullBlock (p : Nat) (s : State) : State :=
  setBuf zeroBlock (compressBuffer (setBuf (zeroFill p 63 s.buf) s))

/-- Steps 2 to 5 of `Pad()`, from position `p` (R113). -/
def padFrom (len : Count) (p : Nat) (s : State) : State :=
  if p > 56 then padLastBlock len 0 (padFullBlock p s) else padLastBlock len p s

/-- `Pad()`, the message padding controller (R113): step 1 writes `0x80` at the current position. -/
def pad (s : State) : State :=
  setFill 0 (padFrom s.bitcnt (s.fill.val + 1) (setBuf (s.buf.set s.fill 0x80) s))

/-! ## `INIT` and reset -/

/-- The engine's state after `INIT` (R100): `data` is not changed. -/
def initEngine (e : Engine) : Engine :=
  { e with H := iv, fill := 0, bitcnt := 0, buf := zeroBlock, finished := false, err := false, errcode := .none }

/-- Reset: the reset state replaces all state of the engine, and no response is given (R230, R231). What the world
outside will bring next is not the engine's, so it stays. The datapath's registers are unspecified after it
(R40). -/
def resetEngine (s : State) : State := releaseDatapath { s with toEngine := Engine.reset, response := none }

end Sys2Proof.Machine
end

