-- ==== Sys2Proof/Machine/Commands.lean ====
section
/-! DEFINITION. The meanings of the three commands (spec 40_commands.md). Every check of a command comes before any
write. A command is carried by a write of `CMD`, so its response carries no read data. -/

namespace Sys2Proof.Machine

/-- `INIT` (R100): accepted in both phases and whatever `err` is. `data` is not changed. The datapath's registers are
unspecified after it (R40). -/
def execInit (s : State) : Host.Outcome State Fault Refusal :=
  .next (okayWrite (releaseDatapath (setEngine (initEngine s.toEngine) s)))

/-- `UPDATE nb` (R104). The values 5, 6 and 7 of `NB` are reserved and rejected with `ILLEGAL_CMD` (R72), which
comes before the phase, and the phase before the length limit (R203). The length limit is checked for each `UPDATE` on
its own (R108): after one was rejected, a later one with fewer bytes that still fits is accepted. DEDUCED, the model's
choice of R104, R108 and V-UPD-9 over the last sentences of R109, which say that every later `UPDATE` of the chunk is
rejected (log entry 14). -/
def execUpdate (nb : BitVec 3) (s : State) : Host.Outcome State Fault Refusal :=
  if nbLegal nb = false then .next (reject .illegalCmd false s)
  else if s.finished then .next (reject .updateAfterFinish false s)
  else if lengthOverflows s.bitcnt nb.toNat then .next (reject .lengthOverflow false s)
  else
    .next (okayWrite (appendBytes (updateBytes s.data nb.toNat)
      (setBitcnt (s.bitcnt + BitVec.ofNat 64 (8 * nb.toNat)) s)))

/-- `FINISH` (R112): the padding controller, then the phase `FINISHED`. -/
def execFinish (s : State) : Host.Outcome State Fault Refusal :=
  if s.finished then .next (reject .alreadyFinished false s)
  else .next (okayWrite (setFinished true (pad s)))

end Sys2Proof.Machine
end

