-- ==== Sys2Proof/Machine/Access.lean ====
section
/-! DEFINITION. The meanings of the eleven accepted register transactions (spec 41_register_access.md). -/

namespace Sys2Proof.Machine

/-- `WR CMD v` (R141): decodes and performs a command. -/
def execWrCmd (v : Word) (s : State) : Host.Outcome State Fault Refusal :=
  match decodeCmd v with
  | .init => execInit s
  | .update nb => execUpdate nb s
  | .finish => execFinish s
  | .illegal => .next (reject .illegalCmd false s)

/-- `WR DATA v` (R142): loads the holding register, in both phases. -/
def execWrData (v : Word) (s : State) : Host.Outcome State Fault Refusal :=
  .next (okayWrite (setData v s))

/-- `RD DATA` (R143). -/
def execRdData (s : State) : Host.Outcome State Fault Refusal := .next (okayRead s.data s)

/-- `RD STATUS` (R144): "The read does not clear `err`." -/
def execRdStatus (s : State) : Host.Outcome State Fault Refusal := .next (okayRead (statusWord s.toEngine) s)

/-- `RD BITCNT_LO` (R145). -/
def execRdBitcntLo (s : State) : Host.Outcome State Fault Refusal := .next (okayRead (lowHalf s.bitcnt) s)

/-- `RD BITCNT_HI` (R146). -/
def execRdBitcntHi (s : State) : Host.Outcome State Fault Refusal := .next (okayRead (highHalf s.bitcnt) s)

/-- `RdDigest(i)` (R148): gated by the phase. -/
def readDigest (i : Fin 5) (s : State) : State :=
  if s.finished then okayRead s.H[i] s else reject .resultBeforeFinish true s

/-- `RD DIGEST0` (R148). -/
def execRdDigest0 (s : State) : Host.Outcome State Fault Refusal := .next (readDigest 0 s)

/-- `RD DIGEST1` (R148). -/
def execRdDigest1 (s : State) : Host.Outcome State Fault Refusal := .next (readDigest 1 s)

/-- `RD DIGEST2` (R148). -/
def execRdDigest2 (s : State) : Host.Outcome State Fault Refusal := .next (readDigest 2 s)

/-- `RD DIGEST3` (R148). -/
def execRdDigest3 (s : State) : Host.Outcome State Fault Refusal := .next (readDigest 3 s)

/-- `RD DIGEST4` (R148). -/
def execRdDigest4 (s : State) : Host.Outcome State Fault Refusal := .next (readDigest 4 s)

end Sys2Proof.Machine
end

