-- ==== Sys2Proof/Machine/Perform.lean ====
section
/-! DEFINITION. Performing one transaction, and accepting the next event from the world outside: what `step` is made
of. -/

namespace Sys2Proof.Machine

/-- `Step(T)` of R140: a descriptor the engine accepts runs its instruction, every other one is rejected (R150). -/
def performTransaction (t : Transaction) (s : State) : Host.Outcome State Fault Refusal :=
  match decodeTransaction t with
  | .ok i => exec i s
  | .error code => .next (reject code t.isRead s)

/-- What one event does, once it has been taken from `pending`. A reset that arrives while a transaction is being
performed abandons it: "The transaction gets no response, and none of its effects remain" (R231). -/
def performEvent (ev : HostEvent) (s : State) : Host.Outcome State Fault Refusal :=
  match ev with
  | .transact t => performTransaction t s
  | .reset => .next (resetEngine s)
  | .resetDuring _ => .next (resetEngine s)

/-- One step: the engine accepts the oldest event and performs it whole before the next (R57). With nothing offered
it is idle, "and its state is kept while idle" (R215). -/
def acceptAndPerform (s : State) : Host.Outcome State Fault Refusal :=
  match s.pending with
  | [] => .next s
  | ev :: rest => performEvent ev { s with pending := rest }

/-- Puts a transaction before everything else that is offered. -/
def offerFirst (t : Transaction) (s : State) : State := { s with pending := .transact t :: s.pending }

/-- Puts the transaction that presents a table word's instruction before everything else that is offered; bits that
are no encoding at all offer nothing. -/
def offerTableWord (s : State) (nbits w : Nat) : State :=
  match tableEncoding nbits w with
  | none => s
  | some e => offerFirst e.toTransaction s

end Sys2Proof.Machine
end

