-- ==== Sys2Proof/Machine/Step.lean ====
section
/-! DEFINITION. One step of the machine, and placing an instruction where the next step takes it. -/

namespace Sys2Proof.Machine

/-- One step of the machine (spec R57, R140). -/
def step (s : State) : Host.Outcome State Fault Refusal := acceptAndPerform s

/-- `s` with the instruction whose bits are `w` offered to the engine as its next transaction: the engine has no
program counter and fetches nothing (R27), so this is the only place a step takes an instruction from. -/
def State.withFetchWord (s : State) (nbits w : Nat) : State := offerTableWord s nbits w

end Sys2Proof.Machine
end

