-- ==== Sys2Proof/Machine/Assembler.lean ====
section
/-! DEFINITION. Host programs, one transaction a line, and the pseudo-instructions with their expansions (spec R80,
R81). No meaning calls these. -/

namespace Sys2Proof.Machine

/-- The registers of the window by name (R31, R80). -/
inductive RegName where
  | CMD
  | DATA
  | STATUS
  | BITCNT_LO
  | BITCNT_HI
  | DIGEST (i : Fin 5)
  deriving DecidableEq, Repr

/-- A register's byte offset in the window (R31). -/
def regOffset : RegName → BitVec 6
  | .CMD => 0x00
  | .DATA => 0x04
  | .STATUS => 0x08
  | .BITCNT_LO => 0x0C
  | .BITCNT_HI => 0x10
  | .DIGEST i => BitVec.ofNat 6 (0x14 + 4 * i.val)

/-- `wr REG, v` (R80). -/
def wr (r : RegName) (v : Word) : Transaction := .write .word (regOffset r) v

/-- `rd REG` (R80). -/
def rd (r : RegName) : Transaction := .read .word (regOffset r)

/-- `wr.b off, v`, `wr.h off, v` and `wr off, v`: a write of a size at a numeric offset (R80). -/
def wrAt (size : Size) (off : BitVec 6) (v : Word) : Transaction := .write size off v

/-- `rd.b off`, `rd.h off` and `rd off`: a read of a size at a numeric offset (R80). -/
def rdAt (size : Size) (off : BitVec 6) : Transaction := .read size off

/-- `INIT` is `wr CMD, 0x00000001` (R80). -/
def asmInit : Transaction := wr .CMD 0x00000001

/-- `UPDATE n` is `wr CMD, 0x00000002 or (n << 4)`, `n` in 0..7 (R80). -/
def asmUpdate (n : Nat) : Transaction := wr .CMD (0x00000002 ||| (BitVec.ofNat 32 n <<< 4))

/-- `FINISH` is `wr CMD, 0x00000003` (R80). -/
def asmFinish : Transaction := wr .CMD 0x00000003

/-- `ABSORB b0, ..., b(n-1)` of 0 to 4 bytes, "with absent bytes 0" (R81). -/
def absorb (bs : List Byte) : List Transaction :=
  match bs with
  | [] => [asmUpdate 0]
  | b :: rest =>
    [wr .DATA (be32 b (rest.getD 0 0) (rest.getD 1 0) (rest.getD 2 0)), asmUpdate (rest.length + 1)]

/-- The groups `ABSORBSTR` splits a byte string into: four bytes each, then what is left, if anything (R81). -/
def groupsOfFour : List Byte → List (List Byte)
  | a :: b :: c :: d :: rest => [a, b, c, d] :: groupsOfFour rest
  | [] => []
  | rest => [rest]

/-- `ABSORBSTR` (R81). -/
def absorbStr (bs : List Byte) : List Transaction := (groupsOfFour bs).flatMap absorb

/-- `RESULT` (R81). -/
def asmResult : List Transaction :=
  [rd (.DIGEST 0), rd (.DIGEST 1), rd (.DIGEST 2), rd (.DIGEST 3), rd (.DIGEST 4)]

/-- `RDBITCNT` (R81). -/
def rdBitcnt : List Transaction := [rd .BITCNT_LO, rd .BITCNT_HI]

/-- `HASHSTR` (R81). -/
def hashStr (bs : List Byte) : List Transaction := [asmInit] ++ absorbStr bs ++ [asmFinish] ++ asmResult

end Sys2Proof.Machine
end

