-- ==== Sys2Proof/Machine/Message.lean ====
section
/-! DEFINITION. The message the engine hashes, as the spec defines it apart from the machine: the padded message
(spec R115) and the digest function (R118). No meaning calls these; statements compare the machine with them. -/

namespace Sys2Proof.Machine

/-- The first 64 bytes of a byte sequence as a block; every use has 64 of them. -/
def blockOf (bs : List Byte) : Block := Vector.ofFn fun i : Fin 64 => bs.getD i.val 0

/-- The first `n` consecutive 64-byte blocks of a byte sequence, folded into digest registers by `Compress`
(R26, R109, R118). -/
def foldBlocks : Nat → Digest → List Byte → Digest
  | 0, h, _ => h
  | n + 1, h, bs => foldBlocks n (compress h (blockOf bs)) (bs.drop 64)

/-- `k = (55 - n) mod 64`, the number of zero bytes in the padding of `n` message bytes (R115). -/
def zeroPadding (n : Nat) : Nat := (55 + (64 - n % 64)) % 64

/-- `Padded(M) = M ++ [0x80] ++ [0x00] * k ++ BEbytes64(8n)` (R115). -/
def padded (m : List Byte) : List Byte :=
  m ++ [0x80] ++ List.replicate (zeroPadding m.length) 0x00 ++ beBytes64 (BitVec.ofNat 64 (8 * m.length))

/-- The digest registers after every block of the padded message (R118). -/
def sha1Digest (m : List Byte) : Digest := foldBlocks ((padded m).length / 64) iv (padded m)

/-- `SHA1(M)`, 20 bytes (R118). -/
def sha1 (m : List Byte) : List Byte := serialize (sha1Digest m)

end Sys2Proof.Machine
end

