-- ==== Sys2Proof/Machine/Timing.lean ====
section
/-! DEFINITION. The informative cycle counts of spec R240, in the open parameter `T_COMP`. "No rule of the model
depends on them": `step` has no time and reads none of this. -/

namespace Sys2Proof.Machine

/-- Cycles of an accepted or rejected `UPDATE nb` (R240). -/
def updateCycles (nb : BitVec 3) (s : State) : Nat :=
  if nbLegal nb = false ∨ s.finished = true ∨ lengthOverflows s.bitcnt nb.toNat = true then 1
  else if 64 ≤ s.fill.val + nb.toNat then 1 + Config.tComp
  else 1

/-- Cycles of an accepted or rejected `FINISH` (R240). -/
def finishCycles (s : State) : Nat :=
  if s.finished then 1
  else if s.fill.val ≤ 55 then 1 + Config.tComp
  else 1 + 2 * Config.tComp

/-- Cycles from acceptance to response of one transaction (R240). -/
def transactionCycles (t : Transaction) (s : State) : Nat :=
  match decodeTransaction t with
  | .ok (.wrCmd v) =>
    match decodeCmd v with
    | .init => 1
    | .update nb => updateCycles nb s
    | .finish => finishCycles s
    | .illegal => 1
  | .ok _ => 1
  | .error _ => 1

end Sys2Proof.Machine
end

