-- ==== Sys2Proof/Machine/Window.lean ====
section
/-! DEFINITION. How the platform routes a host access to the engine: the 64-byte register window at `ENGINE_BASE`, its
aliases, and the masters that may reach it (spec R31, R50, R51, R56, R209). The engine sees only the transaction that
results: no part of it names the master or the address. -/

namespace Sys2Proof.Machine

/-- The byte offset in the window of a host address. An address outside the 64 bytes at `ENGINE_BASE` is "the
platform's" (R56): an alias of an offset, or none. -/
def windowOffset (addr : Nat) : Option (BitVec 6) :=
  if Config.engineBase ≤ addr ∧ addr < Config.engineBase + Config.windowBytes then
    some (BitVec.ofNat 6 (addr - Config.engineBase))
  else Config.windowAlias addr

/-- The byte offset that an access of this master to this host address reaches, if the platform lets it pass: "the
engine sees only the transactions that pass" (R209). -/
def routedOffset (master addr : Nat) : Option (BitVec 6) :=
  if Config.masterAdmitted master then windowOffset addr else none

/-- `MemRead(addr, n)` of a host master: the transaction it issues to the engine's window, if any (R11, R51). -/
def memRead (master addr : Nat) (size : Size) : Option Transaction :=
  (routedOffset master addr).map (Transaction.read size)

/-- `MemWrite(addr, n, v)` of a host master (R11, R51). -/
def memWrite (master addr : Nat) (size : Size) (v : Word) : Option Transaction :=
  (routedOffset master addr).map fun off => Transaction.write size off v

end Sys2Proof.Machine
end

