-- ==== Sys2Proof/Safety.lean ====
section
/-! DEFINITION. What counts as a safe run of the engine, in the terms the statements use: rejections (spec R201), the
invariant of every reachable state (R26), what the host can observe (R39), and runs of transactions (R57). -/

namespace Sys2Proof.Machine

/-! ## Rejections -/

/-- The rejection of a decoded command in a state, if any: the phase before the length limit (R201, R203). -/
def commandRejection (c : Cmd) (e : Engine) : Option ErrCode :=
  match c with
  | .illegal => some .illegalCmd
  | .init => none
  | .update nb =>
    if e.finished then some .updateAfterFinish
    else if e.bitcnt.toNat + 8 * nb.toNat > 2 ^ 64 - 1 then some .lengthOverflow
    else none
  | .finish => if e.finished then some .alreadyFinished else none

/-- Whether the transaction is an aligned 32-bit access, by the kind the register there allows, to an offset that
holds a register: `CMD` takes writes, `DATA` both, every other register reads (R31, R54). -/
def accessAllowed : Transaction → Bool
  | .write .word off _ => off == 0x00 || off == 0x04
  | .read .word off => off.toNat % 4 == 0 && decide (0x04 ≤ off.toNat) && decide (off.toNat ≤ 0x24)
  | .read _ _ => false
  | .write _ _ _ => false

/-- Whether the offset is that of a register gated by the phase, `DIGEST0` to `DIGEST4` (R31). -/
def digestOffset (off : BitVec 6) : Bool := decide (0x14 ≤ off.toNat)

/-- The one rejection a transaction meets, the first in the order of R203, or `none` where it is accepted: the whole
list of R201. -/
def rejection (t : Transaction) (e : Engine) : Option ErrCode :=
  if accessAllowed t = false then some .illegalAccess
  else
    match t with
    | .write _ off v => if off = 0x00 then commandRejection (decodeCmd v) e else none
    | .read _ off => if digestOffset off = true ∧ e.finished = false then some .resultBeforeFinish else none

/-! ## The invariant of every reachable state -/

/-- The engine has absorbed exactly the message `m` (R26): the bit counter, and in `ABSORBING` the fill count, the
digest registers and the valid tail of the buffer (R24), in `FINISHED` the digest. -/
structure Absorbed (m : List Byte) (e : Engine) : Prop where
  bits : e.bitcnt.toNat = 8 * m.length
  fill : e.finished = false → e.fill.val = m.length % 64
  folded : e.finished = false → e.H = foldBlocks (m.length / 64) iv m
  tail : e.finished = false → ∀ i : Fin 64, i.val < e.fill.val → some e.buf[i] = m[64 * (m.length / 64) + i.val]?
  drained : e.finished = true → e.fill = 0
  digest : e.finished = true → e.H = sha1Digest m

/-- The message after an event, if it was `m` before: the bytes of an accepted `UPDATE` are appended, `INIT` and reset
start a new one, and nothing else changes it (R26, glossary "Message"). -/
def messageAfter (ev : HostEvent) (e : Engine) (m : List Byte) : List Byte :=
  match ev with
  | .reset => []
  | .resetDuring _ => []
  | .transact t =>
    if rejection t e = none ∧ t.desc = 0x180 then
      match decodeCmd t.wdata with
      | .init => []
      | .update nb => m ++ updateBytes e.data nb.toNat
      | .finish => m
      | .illegal => m
    else m

/-- The invariant of every reachable state (R26), with that of the error flags (R29, R200): the code is `NONE` exactly
while no rejection is recorded. -/
structure Inv (e : Engine) : Prop where
  message : ∃ m : List Byte, Absorbed m e
  bound : e.bitcnt.toNat ≤ 2 ^ 64 - 8
  errors : e.errcode = .none ↔ e.err = false

/-! ## What the host can observe -/

/-- The valid bytes `buf[0..fill-1]` agree (R24). -/
def sameTail (e₁ e₂ : Engine) : Prop := ∀ i : Fin 64, i.val < e₁.fill.val → e₁.buf[i] = e₂.buf[i]

/-- The two machines differ at most in the hidden state of R39: the datapath's registers, the draws of free values,
and the invalid bytes `buf[fill..63]`. -/
structure SameButHidden (s₁ s₂ : State) : Prop where
  fill : s₁.fill = s₂.fill
  bitcnt : s₁.bitcnt = s₂.bitcnt
  digest : s₁.H = s₂.H
  finished : s₁.finished = s₂.finished
  err : s₁.err = s₂.err
  errcode : s₁.errcode = s₂.errcode
  data : s₁.data = s₂.data
  valid : sameTail s₁.toEngine s₂.toEngine
  response : s₁.response = s₂.response
  pending : s₁.pending = s₂.pending

/-! ## Runs of transactions -/

/-- `s` with these transactions offered after one another, and nothing after them. -/
def offering (ts : List Transaction) (s : State) : State := { s with pending := ts.map HostEvent.transact }

/-- The host sequence `INIT`, `ABSORB` of each group, `FINISH` (R118, R233). -/
def hashGroups (groups : List (List Byte)) : List Transaction :=
  [asmInit] ++ groups.flatMap absorb ++ [asmFinish]

end Sys2Proof.Machine
end

