-- ==== Sys2Proof/Certificates/Slice0/Obligations.lean ====
section
/-! DEFINITION. The statements for the provers, in the order of the spec's files. Each docstring names the rule a
statement formalises, or the log entry a clause rests on where it is the model's own choice. -/

open Sys2Proof Sys2Proof.Machine

/-! ## State and reset (10_state.md, 70_reset_and_hazards.md) -/

/-- R230. The state after reset, what the first reads see, that every digest read is rejected, and that a message can
be absorbed without an `INIT`. -/
def Obligations.ResetStateIsAsSpecified : Prop :=
  State.reset.H = #v[0x67452301, 0xEFCDAB89, 0x98BADCFE, 0x10325476, 0xC3D2E1F0] ∧
  State.reset.fill = 0 ∧ State.reset.bitcnt = 0 ∧ (∀ i : Fin 64, State.reset.buf[i] = 0x00) ∧
  State.reset.finished = false ∧ State.reset.err = false ∧ State.reset.errcode = .none ∧ State.reset.data = 0 ∧
  (∀ i ∈ [Instr.rdStatus, .rdBitcntLo, .rdBitcntHi, .rdData],
    exec i State.reset = .next { State.reset with response := some (.okay (some 0)) }) ∧
  (∀ i ∈ [Instr.rdDigest0, .rdDigest1, .rdDigest2, .rdDigest3, .rdDigest4],
    exec i State.reset = .next { State.reset with
      err := true, errcode := .resultBeforeFinish, response := some (.error (some 0)) }) ∧
  (∀ nb : BitVec 3, nb.toNat ≤ 4 →
    ∃ t, exec (.update nb) State.reset = .next t ∧ t.response = some (.okay none) ∧
      t.fill.val = nb.toNat ∧ t.bitcnt.toNat = 8 * nb.toNat)

/-- R231, R230. A reset, between two transactions or while one is being performed, replaces the engine's whole state
by the reset state, so no effect of a transaction it meets remains, and that transaction gets no response. -/
def Obligations.ResetEventReplacesTheEngineState : Prop :=
  ∀ (s : State) (tr : Transaction) (rest : List HostEvent),
    (s.pending = .reset :: rest ∨ s.pending = .resetDuring tr :: rest) →
    ∃ t, step s = .next t ∧ t.toEngine = State.reset.toEngine ∧ t.pending = rest ∧
      (s.pending = .resetDuring tr :: rest → t.response = none)

/-- R22, R232. `INIT` is accepted in every state and leaves the reset state, but for `data`, which it keeps; both load
the same five initial values. -/
def Obligations.InitLeavesTheResetStateExceptData : Prop :=
  (∀ s : State, ∃ t, exec .init s = .next t ∧ t.toEngine = { State.reset.toEngine with data := s.data } ∧
    t.H = #v[0x67452301, 0xEFCDAB89, 0x98BADCFE, 0x10325476, 0xC3D2E1F0] ∧
    t.response = some (.okay none) ∧ t.pending = s.pending) ∧
  State.reset.H = #v[0x67452301, 0xEFCDAB89, 0x98BADCFE, 0x10325476, 0xC3D2E1F0] ∧ State.reset.data = 0

/-- R26 at reset, with the error flags' own invariant (R29, R200). -/
def Obligations.InvariantHoldsAtReset : Prop := Inv State.reset.toEngine

/-- R26, step by step: if the engine has absorbed exactly `m`, then after a step it has absorbed exactly `m`
and the bytes of that step's `UPDATE`, if it was one that was accepted; the empty message after `INIT` or a reset. -/
def Obligations.StepExtendsTheAbsorbedMessage : Prop :=
  ∀ (s t : State) (m : List Byte) (ev : HostEvent) (rest : List HostEvent), Absorbed m s.toEngine →
    s.pending = ev :: rest → step s = .next t →
    Absorbed (messageAfter ev s.toEngine m) t.toEngine ∧ t.bitcnt.toNat ≤ 2 ^ 64 - 8

/-- R26. From every state that meets the invariant, every step leads to a state that meets it: the bit counter counts
the message, the digest registers are its complete blocks folded, the buffer holds its tail, and in `FINISHED` the
digest registers hold its digest. -/
def Obligations.StepKeepsTheMessageInvariant : Prop :=
  ∀ s t : State, Inv s.toEngine → step s = .next t → Inv t.toEngine

/-- R28, over all steps: the phase bit is set by an accepted `FINISH` and nothing else, and cleared by `INIT` and reset
and nothing else. -/
def Obligations.PhaseIsWrittenOnlyByFinishInitAndReset : Prop :=
  ∀ (s t : State) (ev : HostEvent) (rest : List HostEvent), s.pending = ev :: rest → step s = .next t →
    (s.finished = false → t.finished = true →
      ev = .transact (.write .word 0x00 0x00000003) ∧ t.response = some (.okay none)) ∧
    (s.finished = true → t.finished = false →
      ev = .transact (.write .word 0x00 0x00000001) ∨ ev = .reset ∨ ∃ tr, ev = .resetDuring tr) ∧
    (ev = .transact (.write .word 0x00 0x00000003) → t.finished = true) ∧
    (ev = .transact (.write .word 0x00 0x00000001) ∨ ev = .reset → t.finished = false)

/-- R29, R206, over all steps: a rejection sets `err` and, if it was clear, `errcode`; while `err` is set neither
changes; only `INIT` and reset clear them; nothing else writes them. -/
def Obligations.ErrorFlagsAreStickyUntilInitOrReset : Prop :=
  ∀ (s t : State) (ev : HostEvent) (rest : List HostEvent), s.pending = ev :: rest → step s = .next t →
    let clears := ev = .transact (.write .word 0x00 0x00000001) ∨ ev = .reset ∨ ∃ tr, ev = .resetDuring tr
    (clears → t.err = false ∧ t.errcode = .none) ∧
    (¬clears → (∃ d, t.response = some (.error d)) →
      t.err = true ∧
        (s.err = true → t.errcode = s.errcode) ∧
        (s.err = false → ∃ tr code, ev = .transact tr ∧ rejection tr s.toEngine = some code ∧ t.errcode = code)) ∧
    (¬clears → (¬∃ d, t.response = some (.error d)) → t.err = s.err ∧ t.errcode = s.errcode)

/-- R21, R23, R25, R30, over all steps: which transactions can change each register. -/
def Obligations.RegistersChangeOnlyByTheirWriters : Prop :=
  ∀ (s t : State) (tr : Transaction) (rest : List HostEvent), s.pending = .transact tr :: rest → step s = .next t →
    (t.data ≠ s.data → ∃ v, tr = .write .word 0x04 v) ∧
    (t.bitcnt ≠ s.bitcnt → ∃ v, tr = .write .word 0x00 v ∧ (decodeCmd v = .init ∨ ∃ nb, decodeCmd v = .update nb)) ∧
    (t.H ≠ s.H ∨ t.buf ≠ s.buf ∨ t.fill ≠ s.fill →
      ∃ v, tr = .write .word 0x00 v ∧
        (decodeCmd v = .init ∨ decodeCmd v = .finish ∨ ∃ nb, decodeCmd v = .update nb))

/-- R39. Two machines that differ only in hidden state, the datapath's registers, the free values and the invalid
bytes `buf[fill..63]`, answer every step alike, and go on differing only in hidden state. -/
def Obligations.HiddenStateAffectsNoResponse : Prop :=
  ∀ s₁ s₂ t₁ t₂ : State, SameButHidden s₁ s₂ → step s₁ = .next t₁ → step s₂ = .next t₂ → SameButHidden t₁ t₂

/-! ## Transactions (20_memory.md, 30_encoding.md, 41_register_access.md) -/

/-- R6, R51, R56. `ENGINE_BASE` is whatever multiple of 64 the platform gives, and each of the 64 host addresses from it
on is the address of exactly one byte offset. What any other address is, and which masters reach the engine, is whatever
the platform's decode makes of it (R56, R209, U15); that this decode is one fixed function of the master and the address
is the MODEL's form of that parameter (log entry 7). -/
def Obligations.WindowCoversSixtyFourAddresses : Prop :=
  Config.engineBase % 64 = 0 ∧
  (∀ (master : Nat) (off : BitVec 6) (size : Size) (v : Word),
    memRead master (Config.engineBase + off.toNat) size =
      (if Config.masterAdmitted master then some (.read size off) else none) ∧
    memWrite master (Config.engineBase + off.toNat) size v =
      (if Config.masterAdmitted master then some (.write size off v) else none)) ∧
  (∀ (master addr : Nat) (size : Size) (v : Word), addr < Config.engineBase ∨ Config.engineBase + 64 ≤ addr →
    memRead master addr size =
      (if Config.masterAdmitted master then (Config.windowAlias addr).map (.read size) else none) ∧
    memWrite master addr size v =
      (if Config.masterAdmitted master then (Config.windowAlias addr).map (.write size · v) else none))

/-- R54. The engine accepts exactly the aligned 32-bit accesses at offsets up to `0x24` whose kind the register allows
(R31); it rejects every other transaction with `ILLEGAL_ACCESS`, changing nothing but the error record. -/
def Obligations.OnlyAlignedWordAccessesOfRegistersAreAccepted : Prop :=
  ∀ (s : State) (tr : Transaction) (rest : List HostEvent), s.pending = .transact tr :: rest →
    ((∃ i, decodeTransaction tr = .ok i) ↔
      (∃ v, tr = .write .word 0x00 v ∨ tr = .write .word 0x04 v) ∨
      (∃ off, tr = .read .word off ∧ off.toNat % 4 = 0 ∧ off.toNat ≤ 0x24 ∧ off ≠ 0x00)) ∧
    ((∀ i, decodeTransaction tr ≠ .ok i) →
      step s = .next { s with
        err := true
        errcode := if s.err then s.errcode else .illegalAccess
        response := some (.error (if tr.isRead then some 0x00000000 else none))
        pending := rest })

/-- R140, R57. A step accepts the oldest transaction and runs exactly the instruction its descriptor and write data
decode to, on the state in which only that transaction has been taken from what is offered. -/
def Obligations.StepRunsTheDecodedInstruction : Prop :=
  ∀ (s : State) (tr : Transaction) (rest : List HostEvent) (i : Instr), s.pending = .transact tr :: rest →
    decodeTransaction tr = .ok i → step s = exec i { s with pending := rest }

/-- R140, R57, R215. Every step answers a next state. A transaction gets exactly one response, with read data exactly
if it is a read, and the events behind it stay as they were; with nothing offered the engine keeps its state. -/
def Obligations.EveryTransactionGetsOneResponse : Prop :=
  ∀ s : State, ∃ t, step s = .next t ∧
    (s.pending = [] → t = s) ∧
    (∀ ev rest, s.pending = ev :: rest → t.pending = rest) ∧
    (∀ tr rest, s.pending = .transact tr :: rest →
      ∃ d : Option Word, d.isSome = tr.isRead ∧ (t.response = some (.okay d) ∨ t.response = some (.error d)))

/-- R57, clause 3. What a step does, its response included, depends on no later transaction: with more events offered
behind those already there, the step does the same and leaves the added events in place. -/
def Obligations.LaterEventsAffectNoEarlierStep : Prop :=
  ∀ (s t : State) (more : List HostEvent), s.pending ≠ [] → step s = .next t →
    step { s with pending := s.pending ++ more } = .next { t with pending := t.pending ++ more }

/-- The instruction of a table word, placed where the next step takes it, is what that step runs (the layout of the
table words is the model's own, log entry 5). -/
def Obligations.PlacedTableWordRunsNext : Prop :=
  ∀ (s : State) (nbits w : Nat) (i : Instr), decodeTableWord nbits w = some i →
    step (s.withFetchWord nbits w) = exec i s

/-- R74. `DecodeCmd` maps exactly seven words to commands, and writing any other is rejected with `ILLEGAL_CMD`. -/
def Obligations.ExactlySevenCommandWordsAreLegal : Prop :=
  decodeCmd 0x00000001 = .init ∧ decodeCmd 0x00000002 = .update 0 ∧ decodeCmd 0x00000012 = .update 1 ∧
  decodeCmd 0x00000022 = .update 2 ∧ decodeCmd 0x00000032 = .update 3 ∧ decodeCmd 0x00000042 = .update 4 ∧
  decodeCmd 0x00000003 = .finish ∧
  ∀ c : Word, c ∉ [(0x00000001 : Word), 0x00000002, 0x00000012, 0x00000022, 0x00000032, 0x00000042, 0x00000003] →
    decodeCmd c = .illegal ∧ ∀ s : State, exec (.wrCmd c) s = .next { s with
      err := true, errcode := if s.err then s.errcode else .illegalCmd, response := some (.error none) }

/-- R73. A command word with any of the bits `[31:7]` set is rejected with `ILLEGAL_CMD`, whatever its `OP`, in every
state. -/
def Obligations.ReservedCommandBitsAreRejected : Prop :=
  ∀ (s : State) (c : Word) (k : Nat), 7 ≤ k → k ≤ 31 → c.getLsbD k = true →
    exec (.wrCmd c) s = .next { s with
      err := true, errcode := if s.err then s.errcode else .illegalCmd, response := some (.error none) }

/-- R72. `NB`: 0 to 4 are legal for `UPDATE` and 0 absorbs nothing; 5 to 7, and a non-zero `NB` with `INIT` or `FINISH`,
are rejected with `ILLEGAL_CMD` in every state. `c` is any command word whose reserved bits are 0. -/
def Obligations.ByteCountFieldIsChecked : Prop :=
  ∀ (s : State) (c : Word), c.toNat < 128 →
    (c.extractLsb' 0 4 = 0x2 → (c.extractLsb' 4 3).toNat ≤ 4 → decodeCmd c = .update (c.extractLsb' 4 3)) ∧
    (c.extractLsb' 0 4 = 0x2 ∧ 5 ≤ (c.extractLsb' 4 3).toNat ∨
        (c.extractLsb' 0 4 = 0x1 ∨ c.extractLsb' 0 4 = 0x3) ∧ (c.extractLsb' 4 3).toNat ≠ 0 →
      exec (.wrCmd c) s = .next { s with
        err := true, errcode := if s.err then s.errcode else .illegalCmd, response := some (.error none) }) ∧
    (c.extractLsb' 0 4 = 0x2 → (c.extractLsb' 4 3).toNat = 0 → s.finished = false →
      exec (.wrCmd c) s = .next { s with response := some (.okay none) })

/-- Decode and encode agree (R74, R77): each well-formed instruction's bits decode to it with every operand, and bits
that decode to an instruction are that instruction's bits, up to the word beside a read's descriptor, which is no
part of a read (R76). -/
def Obligations.DecodeAndEncodeAgree : Prop :=
  (∀ i : Instr, i.wf = true → decode (encode i) = .ok i) ∧
  (∀ (e : Encoding) (i : Instr), decode e = .ok i → i.wf = true ∧ encode i = e.canonical)

/-- R76, R77. The fields of a transaction's descriptor, and the eleven accepted descriptors with the transaction each one
is; every other descriptor, those with `SZ = 11` among them, is rejected with `ILLEGAL_ACCESS`. -/
def Obligations.ElevenDescriptorsAreAccepted : Prop :=
  (Size.code .byte = 0b00 ∧ Size.code .half = 0b01 ∧ Size.code .word = 0b10 ∧ Size.code .reserved = 0b11) ∧
  (∀ (size : Size) (off : BitVec 6) (v : Word),
    (Transaction.read size off).desc.toNat = 64 * size.code.toNat + off.toNat ∧
    (Transaction.write size off v).desc.toNat = 256 + 64 * size.code.toNat + off.toNat) ∧
  (∀ v : Word, decodeDesc 0x180 v = .ok (.wrCmd v) ∧ decodeDesc 0x184 v = .ok (.wrData v) ∧
    decodeDesc 0x084 v = .ok .rdData ∧ decodeDesc 0x088 v = .ok .rdStatus ∧
    decodeDesc 0x08C v = .ok .rdBitcntLo ∧ decodeDesc 0x090 v = .ok .rdBitcntHi ∧
    decodeDesc 0x094 v = .ok .rdDigest0 ∧ decodeDesc 0x098 v = .ok .rdDigest1 ∧
    decodeDesc 0x09C v = .ok .rdDigest2 ∧ decodeDesc 0x0A0 v = .ok .rdDigest3 ∧
    decodeDesc 0x0A4 v = .ok .rdDigest4) ∧
  (∀ (d : BitVec 9) (v : Word), d ∉ [(0x180 : BitVec 9), 0x184, 0x084, 0x088, 0x08C, 0x090, 0x094, 0x098, 0x09C, 0x0A0,
    0x0A4] → decodeDesc d v = .error .illegalAccess)

/-- Words of spec/opcode_table.json, one or more for each of its 14 rows at the row's own bits, decode to the row's
instruction; a `BUS` row's operand word is 0 there, and stands in bits `[47:16]` of a longer number (the layout is the
model's own, log entry 5). -/
def Obligations.TableRowsDecodeToTheirInstructions : Prop :=
  decodeTableWord 32 0x00000001 = some .init ∧ decodeTableWord 32 0x00000042 = some (.update 4) ∧
  decodeTableWord 32 0x00000003 = some .finish ∧ decodeTableWord 32 0x00000052 = none ∧
  decodeTableWord 16 0x0180 = some (.wrCmd 0) ∧ decodeTableWord 16 0x0184 = some (.wrData 0) ∧
  decodeTableWord 48 0x616263000184 = some (.wrData 0x61626300) ∧
  decodeTableWord 16 0x0084 = some .rdData ∧ decodeTableWord 16 0x0088 = some .rdStatus ∧
  decodeTableWord 16 0x008C = some .rdBitcntLo ∧ decodeTableWord 16 0x0090 = some .rdBitcntHi ∧
  decodeTableWord 16 0x0094 = some .rdDigest0 ∧ decodeTableWord 16 0x0098 = some .rdDigest1 ∧
  decodeTableWord 16 0x009C = some .rdDigest2 ∧ decodeTableWord 16 0x00A0 = some .rdDigest3 ∧
  decodeTableWord 16 0x00A4 = some .rdDigest4 ∧ decodeTableWord 16 0x00A8 = none

/-- R80. The assembler's lines are the transactions and commands the spec gives them: the register lines and the numeric
ones, each a 32-bit access at the register's offset or one of the size and at the offset it names, of which those of 1
or 2 bytes are always rejected; and the command lines, each the 32-bit write of its word to `CMD`, where `UPDATE n` with
`n` from 5 to 7 assembles and is illegal. -/
def Obligations.AssemblerLinesDecodeToTheirInstructions : Prop :=
  (∀ r v, wr r v = .write .word (regOffset r) v ∧ rd r = .read .word (regOffset r)) ∧
  (∀ size off v, wrAt size off v = .write size off v ∧ rdAt size off = .read size off) ∧
  (∀ v, decodeTransaction (wr .CMD v) = .ok (.wrCmd v) ∧ decodeTransaction (wr .DATA v) = .ok (.wrData v)) ∧
  decodeTransaction (rd .DATA) = .ok .rdData ∧ decodeTransaction (rd .STATUS) = .ok .rdStatus ∧
  decodeTransaction (rd .BITCNT_LO) = .ok .rdBitcntLo ∧ decodeTransaction (rd .BITCNT_HI) = .ok .rdBitcntHi ∧
  asmResult.map decodeTransaction = [.ok .rdDigest0, .ok .rdDigest1, .ok .rdDigest2, .ok .rdDigest3, .ok .rdDigest4] ∧
  (∀ size ∈ [Size.byte, Size.half], ∀ off v,
    decodeTransaction (wrAt size off v) = .error .illegalAccess ∧ decodeTransaction (rdAt size off) = .error .illegalAccess) ∧
  asmInit = wr .CMD 0x00000001 ∧ decodeCmd 0x00000001 = .init ∧
  asmFinish = wr .CMD 0x00000003 ∧ decodeCmd 0x00000003 = .finish ∧
  (∀ n : Fin 8,
    let word : Word := 0x00000002 ||| (BitVec.ofNat 32 n.val <<< 4)
    asmUpdate n.val = wr .CMD word ∧ decodeTransaction (asmUpdate n.val) = .ok (.wrCmd word) ∧
      decodeCmd word = if n.val ≤ 4 then .update (BitVec.ofNat 3 n.val) else .illegal)

/-- R141. A write of `CMD` performs the command its word decodes to, and an illegal word is rejected with
`ILLEGAL_CMD`. -/
def Obligations.CommandWriteRunsItsCommand : Prop :=
  ∀ (s : State) (c : Word),
    (decodeCmd c = .init → exec (.wrCmd c) s = exec .init s) ∧
    (∀ nb, decodeCmd c = .update nb → exec (.wrCmd c) s = exec (.update nb) s) ∧
    (decodeCmd c = .finish → exec (.wrCmd c) s = exec .finish s) ∧
    (decodeCmd c = .illegal → exec (.wrCmd c) s = .next { s with
      err := true, errcode := if s.err then s.errcode else .illegalCmd, response := some (.error none) })

/-- R141, R151. Where a `CMD` write completes: with a legal word and the phase and length its command needs, it
answers a next state with `OKAY`, in which the command's own effect on the counter and the phase stands. -/
def Obligations.CommandWriteCompletes : Prop :=
  ∀ s : State,
    (∃ t, exec (.wrCmd 0x00000001) s = .next t ∧ t.response = some (.okay none) ∧ t.finished = false ∧ t.bitcnt = 0 ∧
      t.fill = 0 ∧ t.err = false) ∧
    (∀ nb : BitVec 3, nb.toNat ≤ 4 → s.finished = false → s.bitcnt.toNat + 8 * nb.toNat ≤ 2 ^ 64 - 1 →
      ∃ t, exec (.wrCmd (cmdWord nb 0x2)) s = .next t ∧ t.response = some (.okay none) ∧ t.finished = false ∧
        t.bitcnt.toNat = s.bitcnt.toNat + 8 * nb.toNat ∧ t.fill.val = (s.fill.val + nb.toNat) % 64) ∧
    (s.finished = false → ∃ t, exec (.wrCmd 0x00000003) s = .next t ∧ t.response = some (.okay none) ∧
      t.finished = true ∧ t.bitcnt = s.bitcnt ∧ t.fill = 0)

/-- R142, R143. `WR DATA` loads `data` and nothing else, in every state, and `RD DATA` returns it and changes
nothing. -/
def Obligations.DataRegisterIsWrittenAndRead : Prop :=
  ∀ (s : State) (v : Word),
    exec (.wrData v) s = .next { s with data := v, response := some (.okay none) } ∧
    exec .rdData s = .next { s with response := some (.okay (some s.data)) }

/-- R144. `RD STATUS` returns the fields at their bits, reserved bits 0, and changes nothing. -/
def Obligations.StatusReadsItsFields : Prop :=
  ∀ s : State, ∃ w : Word, exec .rdStatus s = .next { s with response := some (.okay (some w)) } ∧
    w.getLsbD 0 = s.finished ∧ w.getLsbD 1 = s.err ∧ w.extractLsb' 2 2 = 0 ∧
    w.extractLsb' 4 4 = errNumber s.errcode ∧ (w.extractLsb' 8 6).toNat = s.fill.val ∧ w.extractLsb' 14 18 = 0

/-- R200, R78. The numbers of the error codes, all below the reserved ones 7 to 15. -/
def Obligations.ErrorCodesHaveTheirNumbers : Prop :=
  errNumber .none = 0 ∧ errNumber .illegalCmd = 1 ∧ errNumber .updateAfterFinish = 2 ∧
  errNumber .alreadyFinished = 3 ∧ errNumber .resultBeforeFinish = 4 ∧ errNumber .lengthOverflow = 5 ∧
  errNumber .illegalAccess = 6 ∧ ∀ c : ErrCode, (errNumber c).toNat < 7

/-- R145, R146. The two halves of the bit counter, in every phase, and together all of it; the reads change nothing. -/
def Obligations.BitCounterReadsItsHalves : Prop :=
  ∀ s : State, ∃ lo hi : Word,
    exec .rdBitcntLo s = .next { s with response := some (.okay (some lo)) } ∧
    exec .rdBitcntHi s = .next { s with response := some (.okay (some hi)) } ∧
    lo.toNat = s.bitcnt.toNat % 2 ^ 32 ∧ hi.toNat = s.bitcnt.toNat / 2 ^ 32 ∧ hi ++ lo = s.bitcnt

/-- R148. The five digest reads: `H[i]` in `FINISHED`, changing nothing; rejected with `RESULT_BEFORE_FINISH` and read
data 0 in `ABSORBING`. -/
def Obligations.DigestReadsAreGatedByThePhase : Prop :=
  ∀ (s : State) (k : Fin 5),
    let i := [Instr.rdDigest0, .rdDigest1, .rdDigest2, .rdDigest3, .rdDigest4][k]
    (s.finished = true → exec i s = .next { s with response := some (.okay (some s.H[k])) }) ∧
    (s.finished = false → exec i s = .next { s with
      err := true
      errcode := if s.err then s.errcode else .resultBeforeFinish
      response := some (.error (some 0x00000000)) })

/-- R149. The digest's bytes: `digest[4i + j]` is `H[i][31-8j : 24-8j]`, 20 bytes. -/
def Obligations.DigestIsSerializedBigEndian : Prop :=
  ∀ h : Digest, (serialize h).length = 20 ∧
    ∀ (i : Fin 5) (j : Fin 4), (serialize h)[4 * i.val + j.val]? = some (h[i].extractLsb' (24 - 8 * j.val) 8)

/-! ## Commands (40_commands.md) -/

/-- R106. An accepted `UPDATE nb` answers a next state. `block` is the buffer with the bytes of `data` (R105) written
from position `fill`. If they do not fill it, it is the new buffer and `H` stays. If they do, it is compressed into `H`
as soon as it is full, stays in the buffer, and the bytes left over are written over it from position 0. -/
def Obligations.UpdateAppendsAndCompressesFullBlocks : Prop :=
  ∀ (s : State) (nb : BitVec 3), nb.toNat ≤ 4 → s.finished = false → s.bitcnt.toNat + 8 * nb.toNat ≤ 2 ^ 64 - 1 →
    let stop := s.fill.val + nb.toNat
    let block : Block := Vector.ofFn fun i : Fin 64 =>
      if s.fill.val ≤ i.val ∧ i.val < stop then s.data.extractLsb' (24 - 8 * (i.val - s.fill.val)) 8 else s.buf[i]
    ∃ t, exec (.update nb) s = .next t ∧ t.response = some (.okay none) ∧
      (stop < 64 → t.fill.val = stop ∧ t.H = s.H ∧ t.buf = block) ∧
      (64 ≤ stop → t.fill.val = stop - 64 ∧ t.H = compress s.H block ∧
        ∀ i : Fin 64, t.buf[i] =
          if i.val < stop - 64 then s.data.extractLsb' (24 - 8 * (64 - s.fill.val + i.val)) 8 else block[i])

/-- R105. The most significant byte of `DATA` is the first message byte, so `UPDATE 4` at a fill count that is a
multiple of 4 puts `data` into the buffer as exactly the schedule word `W[fill/4]`; for every `UPDATE nb`, byte `k`
of the message bytes is `data[31-8k : 24-8k]`. -/
def Obligations.DataIsAbsorbedMostSignificantByteFirst : Prop :=
  (∀ (data : Word) (nb : Nat), nb ≤ 4 → (updateBytes data nb).length = nb ∧
    ∀ k, k < nb → ∃ b : Byte, (updateBytes data nb)[k]? = some b ∧ b.toNat = data.toNat / 2 ^ (24 - 8 * k) % 256) ∧
  (∀ s : State, s.finished = false → s.bitcnt.toNat + 32 ≤ 2 ^ 64 - 1 → s.fill.val % 4 = 0 →
    ∃ t, exec (.update 4) s = .next t ∧ blockWord t.buf (s.fill.val / 4) = s.data)

/-- R107. An accepted `UPDATE nb` adds `8 * nb` to the bit counter, exactly. -/
def Obligations.UpdateCountsEightBitsAByte : Prop :=
  ∀ (s : State) (nb : BitVec 3), nb.toNat ≤ 4 → s.finished = false → s.bitcnt.toNat + 8 * nb.toNat ≤ 2 ^ 64 - 1 →
    ∃ t, exec (.update nb) s = .next t ∧ t.bitcnt.toNat = s.bitcnt.toNat + 8 * nb.toNat

/-- R108. An `UPDATE` that would take the bit counter past `2^64 - 1` is rejected with `LENGTH_OVERFLOW` and absorbs
nothing; at `2^64 - 8` bits every `UPDATE nb` with `nb >= 1` is rejected and `UPDATE 0` is accepted; the largest
count an `UPDATE` can leave, where the counter is a multiple of 8, is `2^64 - 8`. -/
def Obligations.UpdatePastTheLengthLimitIsRejected : Prop :=
  ∀ (s : State) (nb : BitVec 3), nb.toNat ≤ 4 → s.finished = false →
    (s.bitcnt.toNat + 8 * nb.toNat > 2 ^ 64 - 1 → exec (.update nb) s = .next { s with
      err := true, errcode := if s.err then s.errcode else .lengthOverflow, response := some (.error none) }) ∧
    (s.bitcnt = 0xFFFFFFFFFFFFFFF8 → 1 ≤ nb.toNat → exec (.update nb) s = .next { s with
      err := true, errcode := if s.err then s.errcode else .lengthOverflow, response := some (.error none) }) ∧
    (s.bitcnt = 0xFFFFFFFFFFFFFFF8 → nb.toNat = 0 →
      exec (.update nb) s = .next { s with response := some (.okay none) }) ∧
    (s.bitcnt.toNat % 8 = 0 → ∀ t, exec (.update nb) s = .next t → t.bitcnt.toNat ≤ 2 ^ 64 - 8)

/-- R104, R112, R116, R203: the phase. In `FINISHED`, `UPDATE nb` with every legal `nb`, 0 included, and `FINISH` are
rejected, whatever the bit counter is, and change nothing but the error record. -/
def Obligations.UpdateAndFinishAreRejectedInFinished : Prop :=
  ∀ s : State, s.finished = true →
    (∀ nb : BitVec 3, nb.toNat ≤ 4 → exec (.update nb) s = .next { s with
      err := true, errcode := if s.err then s.errcode else .updateAfterFinish, response := some (.error none) }) ∧
    exec .finish s = .next { s with
      err := true, errcode := if s.err then s.errcode else .alreadyFinished, response := some (.error none) }

/-- R104. What `UPDATE nb` leaves unchanged, in whatever state, for every value of its field: `data`, the phase and
what is offered; on `OKAY` also the error record, and every buffer byte outside the `nb` positions from `fill` on,
counted modulo 64; `H` unless the block is completed. -/
def Obligations.UpdateFrame : Prop :=
  ∀ (s t : State) (nb : BitVec 3), exec (.update nb) s = .next t →
    t.data = s.data ∧ t.finished = s.finished ∧ t.pending = s.pending ∧
    (t.response = some (.okay none) → t.err = s.err ∧ t.errcode = s.errcode) ∧
    (s.fill.val + nb.toNat < 64 → t.H = s.H) ∧
    (∀ i : Fin 64, (∀ k : Nat, k < nb.toNat → i.val ≠ (s.fill.val + k) % 64) → t.buf[i] = s.buf[i])

/-- R113. `FINISH` in `ABSORBING` answers a next state. `first f` is the tail of the message, the byte `0x80` and zeros;
`len` is the bit counter's eight bytes, high word first. With `fill <= 55` one block holds both, else there is a
second block of zeros and the length. -/
def Obligations.FinishPadsAndCompresses : Prop :=
  ∀ s : State, s.finished = false →
    let len : Nat → Byte := fun j => s.bitcnt.extractLsb' (56 - 8 * j) 8
    let first : Fin 64 → Byte := fun i => if i.val < s.fill.val then s.buf[i] else if i.val = s.fill.val then 0x80 else 0x00
    let one : Block := Vector.ofFn fun i => if i.val < 56 then first i else len (i.val - 56)
    let two : Block := Vector.ofFn fun i => if i.val < 56 then 0x00 else len (i.val - 56)
    ∃ t, exec .finish s = .next t ∧ t.response = some (.okay none) ∧ t.finished = true ∧ t.fill = 0 ∧
      (s.fill.val ≤ 55 → t.H = compress s.H one ∧ t.buf = one) ∧
      (56 ≤ s.fill.val → t.H = compress (compress s.H (Vector.ofFn first)) two ∧ t.buf = two)

/-- R114, R57 as the model's counter of draws records compressions (log entry 2): an accepted `UPDATE` compresses at most
once, an accepted `FINISH` once with `fill <= 55` and twice with `fill >= 56`. That an `UPDATE` without a compression
leaves the datapath's registers as they were is the MODEL's choice too (log entry 2, unsafe): R36 to R38 and U7 leave
them unspecified then. -/
def Obligations.CommandsCompressAtMostTwice : Prop :=
  ∀ s : State, s.finished = false →
    (∀ nb : BitVec 3, nb.toNat ≤ 4 → s.bitcnt.toNat + 8 * nb.toNat ≤ 2 ^ 64 - 1 →
      ∃ t, exec (.update nb) s = .next t ∧
        (s.fill.val + nb.toNat < 64 → t.draws = s.draws ∧ t.datapath = s.datapath) ∧
        (64 ≤ s.fill.val + nb.toNat → t.draws = s.draws + 1)) ∧
    (∃ t, exec .finish s = .next t ∧
      (s.fill.val ≤ 55 → t.draws = s.draws + 1) ∧ (56 ≤ s.fill.val → t.draws = s.draws + 2))

/-- R112. What `FINISH` leaves unchanged, in whatever state: the bit counter, `data` and what is offered; on `OKAY` also
the error record. -/
def Obligations.FinishFrame : Prop :=
  ∀ s t : State, exec .finish s = .next t →
    t.bitcnt = s.bitcnt ∧ t.data = s.data ∧ t.pending = s.pending ∧ t.finished = true ∧
    (t.response = some (.okay none) → t.err = s.err ∧ t.errcode = s.errcode)

/-- R116, R238. In `FINISHED` no transaction but `INIT` changes the digest, the phase, the bit counter, the fill count or
the buffer, so every accepted digest read returns the same value until the next `INIT` or reset. -/
def Obligations.FinishedDigestIsReadOnly : Prop :=
  ∀ (s t : State) (tr : Transaction) (rest : List HostEvent), s.finished = true → s.pending = .transact tr :: rest →
    tr ≠ .write .word 0x00 0x00000001 → step s = .next t →
    t.finished = true ∧ t.H = s.H ∧ t.bitcnt = s.bitcnt ∧ t.fill = s.fill ∧ t.buf = s.buf ∧
    ∀ (k : Fin 5) (v : Word),
      exec ([Instr.rdDigest0, .rdDigest1, .rdDigest2, .rdDigest3, .rdDigest4][k]) s =
        .next { s with response := some (.okay (some v)) } →
      exec ([Instr.rdDigest0, .rdDigest1, .rdDigest2, .rdDigest3, .rdDigest4][k]) t =
        .next { t with response := some (.okay (some v)) }

/-- R115. The padding of `n` bytes holds `k = (55 - n) mod 64` zero bytes, and the padded message is a multiple of 64
bytes long. -/
def Obligations.PaddedMessageIsWholeBlocks : Prop :=
  ∀ m : List Byte, zeroPadding m.length ≤ 63 ∧
    ((zeroPadding m.length : Int) ≡ 55 - (m.length : Int) [ZMOD 64]) ∧
    (padded m).length = m.length + 1 + zeroPadding m.length + 8 ∧ (padded m).length % 64 = 0

/-- R109, R81, within the length limit (past it, log entry 14): from an `ABSORBING` state, `ABSORBSTR` of a chunk `C` is
accepted, and leaves the counter, the digest registers, the fill count and the valid tail of the buffer that `T = buf[0..fill-1] ++ C`
determines. -/
def Obligations.AbsorbStrAbsorbsTheChunk : Prop :=
  ∀ (s : State) (c : List Byte), s.finished = false → s.bitcnt.toNat + 8 * c.length ≤ 2 ^ 64 - 1 →
    let whole := s.buf.toList.take s.fill.val ++ c
    ∃ t, Host.Core.run Sys2Proof.core (absorbStr c).length (offering (absorbStr c) s) = .next t ∧ t.pending = [] ∧
      t.err = s.err ∧ t.errcode = s.errcode ∧ t.finished = false ∧
      t.bitcnt.toNat = s.bitcnt.toNat + 8 * c.length ∧
      t.H = foldBlocks (whole.length / 64) s.H whole ∧
      t.fill.val = (s.fill.val + c.length) % 64 ∧
      t.buf.toList.take t.fill.val = whole.drop (64 * (whole.length / 64))

/-- R110. Two splits of the same bytes into groups of 0 to 4, absorbed from the same `ABSORBING` state within the length
limit, are both accepted and leave the same `H`, `fill`, `bitcnt` and `buf`. -/
def Obligations.AbsorbingIsIndependentOfTheSplit : Prop :=
  ∀ (s : State) (groups groups' : List (List Byte)), (∀ g ∈ groups, g.length ≤ 4) → (∀ g ∈ groups', g.length ≤ 4) →
    groups'.flatten = groups.flatten → s.finished = false →
    s.bitcnt.toNat + 8 * groups.flatten.length ≤ 2 ^ 64 - 1 →
    ∃ t t', Host.Core.run Sys2Proof.core (groups.flatMap absorb).length (offering (groups.flatMap absorb) s) = .next t ∧
      Host.Core.run Sys2Proof.core (groups'.flatMap absorb).length (offering (groups'.flatMap absorb) s) = .next t' ∧
      t.pending = [] ∧ t'.pending = [] ∧ t.err = s.err ∧ t'.err = s.err ∧
      t'.H = t.H ∧ t'.fill = t.fill ∧ t'.bitcnt = t.bitcnt ∧ t'.buf = t.buf

/-- R118. From every state, `INIT`, any split of `M` into groups of 0 to 4 bytes, and `FINISH` are accepted within the
length limit, and leave `FINISHED` with the serialized `H` equal to `SHA1(M)`. -/
def Obligations.HashSequenceLeavesTheDigestOfTheMessage : Prop :=
  ∀ (s : State) (groups : List (List Byte)), (∀ g ∈ groups, g.length ≤ 4) →
    8 * groups.flatten.length ≤ 2 ^ 64 - 8 →
    ∃ t, Host.Core.run Sys2Proof.core (hashGroups groups).length (offering (hashGroups groups) s) = .next t ∧
      t.pending = [] ∧ t.finished = true ∧ t.err = false ∧ t.errcode = .none ∧
      t.bitcnt.toNat = 8 * groups.flatten.length ∧ serialize t.H = sha1 groups.flatten

/-! ## Rejections (60_exceptions.md) -/

/-- R201, R203. Each transaction meets exactly the rejection that the list of R201 gives, the first in the order of
R203: then it changes only the error record. With none it is accepted: its response is `OKAY`. -/
def Obligations.ExactlyTheListedConditionsReject : Prop :=
  ∀ (s : State) (tr : Transaction) (rest : List HostEvent), s.pending = .transact tr :: rest →
    match rejection tr s.toEngine with
    | some code => step s = .next { s with
        err := true
        errcode := if s.err then s.errcode else code
        response := some (.error (if tr.isRead then some 0x00000000 else none))
        pending := rest }
    | none => ∃ t d, step s = .next t ∧ t.response = some (.okay d)

/-- R202. A rejected transaction changes nothing but `err` and `errcode`, and those only if `err` was 0; a rejected read
returns 0. And `err` and `errcode` block nothing: machines that differ only in them answer every transaction but a
`STATUS` read alike, and go on differing only in them. That a rejection leaves the datapath's registers and the counter
of draws as they were is the MODEL's choice (log entry 2): R36 to R38 leave the registers unspecified, and the counter is
the model's own. -/
def Obligations.RejectionsChangeAndBlockNothingElse : Prop :=
  (∀ (s t : State) (tr : Transaction) (rest : List HostEvent) (d : Option Word),
    s.pending = .transact tr :: rest → step s = .next t → t.response = some (.error d) →
      d = (if tr.isRead then some 0x00000000 else none) ∧ t.err = true ∧
      (s.err = true → t.toEngine = s.toEngine) ∧
      (∃ code, t.toEngine = { s.toEngine with err := true, errcode := code }) ∧
      t.datapath = s.datapath ∧ t.draws = s.draws ∧ t.pending = rest) ∧
  (∀ (s t : State) (tr : Transaction) (rest : List HostEvent) (flag : Bool) (code : ErrCode),
    s.pending = .transact tr :: rest → step s = .next t →
      ∃ (u : State) (flag' : Bool) (code' : ErrCode), step { s with err := flag, errcode := code } = .next u ∧
        u = { t with err := flag', errcode := code', response := u.response } ∧
        (tr ≠ .read .word 0x08 → u.response = t.response))

/-! ## The compression function (42_compression.md) -/

/-- R171. The word reinterpreter is big-endian: byte `4j + k` of the block is byte `3 - k` of `W[j]`. -/
def Obligations.ScheduleStartsWithTheBlockBigEndian : Prop :=
  ∀ (b : Block) (j : Fin 16), ∃ w : Word, (schedule b)[j.val]? = some w ∧
    ∀ k : Fin 4, w.extractLsb' (24 - 8 * k.val) 8 = b[4 * j.val + k.val]

/-- R172. The schedule has 80 words, and from `W[16]` on each is made from four earlier ones. -/
def Obligations.ScheduleFollowsItsRecurrence : Prop :=
  ∀ b : Block, (schedule b).length = 80 ∧
    ∀ t, 16 ≤ t → t < 80 → ∃ w3 w8 w14 w16 : Word,
      (schedule b)[t - 3]? = some w3 ∧ (schedule b)[t - 8]? = some w8 ∧
      (schedule b)[t - 14]? = some w14 ∧ (schedule b)[t - 16]? = some w16 ∧
      (schedule b)[t]? = some ((w3 ^^^ w8 ^^^ w14 ^^^ w16).rotateLeft 1)

/-- R175, R176. The round function, bit by bit, and the round constant of each of the 80 rounds. -/
def Obligations.RoundFunctionsAndConstantsFollowTheirRanges : Prop :=
  ∀ (t : Nat) (b c d : Word) (k : Nat), t < 80 → k < 32 →
    let x := b.getLsbD k
    let y := c.getLsbD k
    let z := d.getLsbD k
    (t < 20 → (roundFunction t b c d).getLsbD k = ((x && y) || (!x && z)) ∧ roundConstant t = 0x5A827999) ∧
    (20 ≤ t ∧ t < 40 → (roundFunction t b c d).getLsbD k = xor (xor x y) z ∧ roundConstant t = 0x6ED9EBA1) ∧
    (40 ≤ t ∧ t < 60 → (roundFunction t b c d).getLsbD k = ((x && y) || (x && z) || (y && z)) ∧
      roundConstant t = 0x8F1BBCDC) ∧
    (60 ≤ t → (roundFunction t b c d).getLsbD k = xor (xor x y) z ∧ roundConstant t = 0xCA62C1D6)

/-- R177, R178, R179. `Compress` is 80 rounds from the digest registers and the final addition: there are values `v t`
of the working variables before each round, the first loaded from `Hin`, each later one made from the one before by
R177 with `W[t]`, `f_t` and `K_t`, such that `Hout[i] = Hin[i] + (v 80)_i` modulo 2^32. -/
def Obligations.CompressIsEightyRoundsAndAnAddition : Prop :=
  ∀ (h : Digest) (b : Block), ∃ v : Nat → Working,
    v 0 = ⟨h[0], h[1], h[2], h[3], h[4]⟩ ∧
    (∀ t, t < 80 → ∃ w : Word, (schedule b)[t]? = some w ∧
      v (t + 1) = {
        a := (v t).a.rotateLeft 5 + roundFunction t (v t).b (v t).c (v t).d + (v t).e + w + roundConstant t
        b := (v t).a
        c := (v t).b.rotateLeft 30
        d := (v t).c
        e := (v t).d }) ∧
    compress h b = #v[h[0] + (v 80).a, h[1] + (v 80).b, h[2] + (v 80).c, h[3] + (v 80).d, h[4] + (v 80).e]

/-- R173. The iterative datapath, with its 16-word rolling window, is a refinement of the 80-word schedule: before its
update in round `t` the window holds `W[t-3]`, `W[t-8]`, `W[t-14]` and `W[t-16]` where the rule says, it gives `W[t]`
in every round, and the datapath computes `Compress`. -/
def Obligations.RollingWindowComputesTheSchedule : Prop :=
  ∀ (h : Digest) (b : Block),
    (∀ t, t < 80 →
      let d := runDatapath t (loadDatapath h b)
      d.t.toNat = t ∧
      (schedule b)[t]? = some (windowAt (turnWindow t d.wwin) t) ∧
      (16 ≤ t →
        (schedule b)[t - 3]? = some (windowAt d.wwin (t + 13)) ∧ (schedule b)[t - 8]? = some (windowAt d.wwin (t + 8)) ∧
        (schedule b)[t - 14]? = some (windowAt d.wwin (t + 2)) ∧ (schedule b)[t - 16]? = some (windowAt d.wwin t))) ∧
    compressIterative h b = compress h b

/-! ## Timing (70_reset_and_hazards.md) -/

/-- R240, informative, in the open parameter `T_COMP`: the cycle count of a transaction is 1 and one `T_COMP` for each
compression the step performs, as the draws of free values count them (log entry 2), for every transaction but an
`INIT`, which takes 1. -/
def Obligations.CyclesCountTheCompressions : Prop :=
  (∀ s : State, transactionCycles (.write .word 0x00 0x00000001) s = 1) ∧
  ∀ (s t : State) (tr : Transaction) (rest : List HostEvent), s.pending = .transact tr :: rest →
    tr ≠ .write .word 0x00 0x00000001 → step s = .next t →
    s.draws ≤ t.draws ∧ transactionCycles tr s = 1 + (t.draws - s.draws) * Config.tComp
end

