-- ==== Sys2Proof/Laws/Blocks.lean ====
section
/-! SUPPORT. Reading a block byte by byte after the padding controller's writes. -/

namespace Sys2Proof.Laws

open Sys2Proof.Machine

/-- Two blocks with the same bytes are the same block. -/
theorem block_ext {a b : Block} (h : ∀ i : Fin 64, a[i] = b[i]) : a = b := by
  exact Vector.ext fun i hi => h ⟨i, hi⟩

theorem zeroRun_get (n p : Nat) (b : Block) (i : Fin 64) :
    (zeroRun p n b)[i] = if p ≤ i.val ∧ i.val < p + n then 0x00 else b[i] := by
  induction n generalizing p b with
  | zero => simp [zeroRun]
  | succ n ih =>
    rw [zeroRun, ih]
    simp only [Fin.getElem_fin, Vector.getElem_setIfInBounds]
    split_ifs <;> first | rfl | omega

/-- `for i in p..q: buf[i] <- 0x00`, read back (R113). -/
theorem zeroFill_get (p q : Nat) (b : Block) (i : Fin 64) :
    (zeroFill p q b)[i] = if p ≤ i.val ∧ i.val ≤ q then 0x00 else b[i] := by
  rw [zeroFill, zeroRun_get]
  split_ifs <;> first | rfl | omega

/-- Bytes written from position `p` on, read back. -/
theorem putBytes_get (xs : List Byte) (p : Nat) (b : Block) (i : Fin 64) :
    (putBytes p xs b)[i] = if p ≤ i.val then (xs[i.val - p]?).getD b[i] else b[i] := by
  induction xs generalizing p b with
  | nil => simp [putBytes]
  | cons x xs ih =>
    rw [putBytes, ih]
    simp only [Fin.getElem_fin, Vector.getElem_setIfInBounds]
    by_cases h : p = i.val
    · subst h; simp
    · by_cases h' : p ≤ i.val
      · have : i.val - p = (i.val - (p + 1)) + 1 := by omega
        rw [if_pos (by omega), if_pos h', if_neg h, this, List.getElem?_cons_succ]
      · rw [if_neg (by omega), if_neg h', if_neg h]

/-- A 32-bit half of the bit counter, byte by byte. -/
theorem half_byte (v : Count) (lo k : Nat) (h : k ≤ 24) :
    (v.extractLsb' lo 32).extractLsb' k 8 = v.extractLsb' (lo + k) 8 := by
  apply BitVec.eq_of_getLsbD_eq
  intro i hi
  simp only [BitVec.getLsbD_extractLsb']
  have : k + i < 32 := by omega
  simp [this, hi, Nat.add_assoc]

/-- The big-endian bytes of a 64-bit value (R10). -/
theorem beBytes64_get (v : Count) (j : Nat) (hj : j < 8) :
    (beBytes64 v)[j]? = some (v.extractLsb' (56 - 8 * j) 8) := by
  interval_cases j <;> simp [beBytes64, beBytes32, highHalf, lowHalf, half_byte]

/-- The last block of the padding controller, read back: zeros from `p` to 55, then the length, high word first (R113,
steps 3 and 4). -/
theorem lastBlock_get (len : Count) (p : Nat) (b : Block) (i : Fin 64) :
    (lastBlock len p b)[i] =
      if i.val < 56 then (if p ≤ i.val then 0x00 else b[i]) else len.extractLsb' (56 - 8 * (i.val - 56)) 8 := by
  rw [lastBlock, putBytes_get, putBytes_get, zeroFill_get]
  by_cases h : i.val < 56
  · rw [if_neg (by omega), if_neg (by omega), if_pos h]
    split_ifs <;> first | rfl | omega
  · rw [if_neg h]
    obtain ⟨j, hj⟩ := i
    simp only at h ⊢
    have : 56 ≤ j := by omega
    interval_cases j <;> simp [beBytes32, highHalf, lowHalf, half_byte]

@[simp] theorem zeroBlock_get (i : Fin 64) : zeroBlock[i] = 0x00 := by simp [zeroBlock]

end Sys2Proof.Laws
end

