-- ==== Sys2Proof/Laws/State.lean ====
section
/-! SUPPORT. What each shared operation does to each part of the state: one lemma for each, true by unfolding the
operation once. -/

namespace Sys2Proof.Laws

open Sys2Proof.Machine

/-! ## The named assignments -/

@[simp] theorem setBuf_toEngine (b : Block) (s : State) : (setBuf b s).toEngine = { s.toEngine with buf := b } := rfl
@[simp] theorem setBuf_datapath (b : Block) (s : State) : (setBuf b s).datapath = s.datapath := rfl
@[simp] theorem setBuf_draws (b : Block) (s : State) : (setBuf b s).draws = s.draws := rfl
@[simp] theorem setBuf_response (b : Block) (s : State) : (setBuf b s).response = s.response := rfl
@[simp] theorem setBuf_pending (b : Block) (s : State) : (setBuf b s).pending = s.pending := rfl

@[simp] theorem setFill_toEngine (n : Fin 64) (s : State) : (setFill n s).toEngine = { s.toEngine with fill := n } := rfl
@[simp] theorem setFill_datapath (n : Fin 64) (s : State) : (setFill n s).datapath = s.datapath := rfl
@[simp] theorem setFill_draws (n : Fin 64) (s : State) : (setFill n s).draws = s.draws := rfl
@[simp] theorem setFill_response (n : Fin 64) (s : State) : (setFill n s).response = s.response := rfl
@[simp] theorem setFill_pending (n : Fin 64) (s : State) : (setFill n s).pending = s.pending := rfl

@[simp] theorem setBitcnt_toEngine (v : Count) (s : State) : (setBitcnt v s).toEngine = { s.toEngine with bitcnt := v } := rfl
@[simp] theorem setBitcnt_datapath (v : Count) (s : State) : (setBitcnt v s).datapath = s.datapath := rfl
@[simp] theorem setBitcnt_draws (v : Count) (s : State) : (setBitcnt v s).draws = s.draws := rfl
@[simp] theorem setBitcnt_response (v : Count) (s : State) : (setBitcnt v s).response = s.response := rfl
@[simp] theorem setBitcnt_pending (v : Count) (s : State) : (setBitcnt v s).pending = s.pending := rfl

@[simp] theorem setDigest_toEngine (h : Digest) (s : State) : (setDigest h s).toEngine = { s.toEngine with H := h } := rfl
@[simp] theorem setDigest_datapath (h : Digest) (s : State) : (setDigest h s).datapath = s.datapath := rfl
@[simp] theorem setDigest_draws (h : Digest) (s : State) : (setDigest h s).draws = s.draws := rfl
@[simp] theorem setDigest_response (h : Digest) (s : State) : (setDigest h s).response = s.response := rfl
@[simp] theorem setDigest_pending (h : Digest) (s : State) : (setDigest h s).pending = s.pending := rfl

@[simp] theorem setFinished_toEngine (b : Bool) (s : State) : (setFinished b s).toEngine = { s.toEngine with finished := b } := rfl
@[simp] theorem setFinished_datapath (b : Bool) (s : State) : (setFinished b s).datapath = s.datapath := rfl
@[simp] theorem setFinished_draws (b : Bool) (s : State) : (setFinished b s).draws = s.draws := rfl
@[simp] theorem setFinished_response (b : Bool) (s : State) : (setFinished b s).response = s.response := rfl
@[simp] theorem setFinished_pending (b : Bool) (s : State) : (setFinished b s).pending = s.pending := rfl

@[simp] theorem setData_toEngine (v : Word) (s : State) : (setData v s).toEngine = { s.toEngine with data := v } := rfl
@[simp] theorem setData_datapath (v : Word) (s : State) : (setData v s).datapath = s.datapath := rfl
@[simp] theorem setData_draws (v : Word) (s : State) : (setData v s).draws = s.draws := rfl
@[simp] theorem setData_response (v : Word) (s : State) : (setData v s).response = s.response := rfl
@[simp] theorem setData_pending (v : Word) (s : State) : (setData v s).pending = s.pending := rfl

@[simp] theorem setEngine_toEngine (e : Engine) (s : State) : (setEngine e s).toEngine = e := rfl
@[simp] theorem setEngine_datapath (e : Engine) (s : State) : (setEngine e s).datapath = s.datapath := rfl
@[simp] theorem setEngine_draws (e : Engine) (s : State) : (setEngine e s).draws = s.draws := rfl
@[simp] theorem setEngine_response (e : Engine) (s : State) : (setEngine e s).response = s.response := rfl
@[simp] theorem setEngine_pending (e : Engine) (s : State) : (setEngine e s).pending = s.pending := rfl

@[simp] theorem releaseDatapath_toEngine (s : State) : (releaseDatapath s).toEngine = s.toEngine := rfl
@[simp] theorem releaseDatapath_datapath (s : State) : (releaseDatapath s).datapath = freeDatapath s.draws := rfl
@[simp] theorem releaseDatapath_draws (s : State) : (releaseDatapath s).draws = s.draws + 1 := rfl
@[simp] theorem releaseDatapath_response (s : State) : (releaseDatapath s).response = s.response := rfl
@[simp] theorem releaseDatapath_pending (s : State) : (releaseDatapath s).pending = s.pending := rfl

/-! ## `respond`, `okayWrite`, `okayRead` -/

@[simp] theorem respond_toEngine (r : Response) (s : State) : (respond r s).toEngine = s.toEngine := rfl
@[simp] theorem respond_datapath (r : Response) (s : State) : (respond r s).datapath = s.datapath := rfl
@[simp] theorem respond_draws (r : Response) (s : State) : (respond r s).draws = s.draws := rfl
@[simp] theorem respond_response (r : Response) (s : State) : (respond r s).response = some r := rfl
@[simp] theorem respond_pending (r : Response) (s : State) : (respond r s).pending = s.pending := rfl

@[simp] theorem okayWrite_toEngine (s : State) : (okayWrite s).toEngine = s.toEngine := rfl
@[simp] theorem okayWrite_datapath (s : State) : (okayWrite s).datapath = s.datapath := rfl
@[simp] theorem okayWrite_draws (s : State) : (okayWrite s).draws = s.draws := rfl
@[simp] theorem okayWrite_response (s : State) : (okayWrite s).response = some (.okay none) := rfl
@[simp] theorem okayWrite_pending (s : State) : (okayWrite s).pending = s.pending := rfl

@[simp] theorem okayRead_toEngine (v : Word) (s : State) : (okayRead v s).toEngine = s.toEngine := rfl
@[simp] theorem okayRead_datapath (v : Word) (s : State) : (okayRead v s).datapath = s.datapath := rfl
@[simp] theorem okayRead_draws (v : Word) (s : State) : (okayRead v s).draws = s.draws := rfl
@[simp] theorem okayRead_response (v : Word) (s : State) : (okayRead v s).response = some (.okay (some v)) := rfl
@[simp] theorem okayRead_pending (v : Word) (s : State) : (okayRead v s).pending = s.pending := rfl

/-! ## `recordError`, `reject` -/

@[simp] theorem recordError_buf (c : ErrCode) (e : Engine) : (recordError c e).buf = e.buf := by
  unfold recordError; split <;> rfl
@[simp] theorem recordError_fill (c : ErrCode) (e : Engine) : (recordError c e).fill = e.fill := by
  unfold recordError; split <;> rfl
@[simp] theorem recordError_bitcnt (c : ErrCode) (e : Engine) : (recordError c e).bitcnt = e.bitcnt := by
  unfold recordError; split <;> rfl
@[simp] theorem recordError_H (c : ErrCode) (e : Engine) : (recordError c e).H = e.H := by
  unfold recordError; split <;> rfl
@[simp] theorem recordError_finished (c : ErrCode) (e : Engine) : (recordError c e).finished = e.finished := by
  unfold recordError; split <;> rfl
@[simp] theorem recordError_err (c : ErrCode) (e : Engine) : (recordError c e).err = true := by
  unfold recordError; split <;> simp_all
@[simp] theorem recordError_errcode (c : ErrCode) (e : Engine) :
    (recordError c e).errcode = if e.err then e.errcode else c := by
  unfold recordError; split <;> rfl
@[simp] theorem recordError_data (c : ErrCode) (e : Engine) : (recordError c e).data = e.data := by
  unfold recordError; split <;> rfl

@[simp] theorem reject_toEngine (c : ErrCode) (r : Bool) (s : State) :
    (reject c r s).toEngine = recordError c s.toEngine := rfl
@[simp] theorem reject_datapath (c : ErrCode) (r : Bool) (s : State) : (reject c r s).datapath = s.datapath := rfl
@[simp] theorem reject_draws (c : ErrCode) (r : Bool) (s : State) : (reject c r s).draws = s.draws := rfl
@[simp] theorem reject_response (c : ErrCode) (r : Bool) (s : State) :
    (reject c r s).response = some (.error (rejectData r)) := rfl
@[simp] theorem reject_pending (c : ErrCode) (r : Bool) (s : State) : (reject c r s).pending = s.pending := rfl

/-- A rejection as one record update (R202). -/
theorem reject_eq (c : ErrCode) (r : Bool) (s : State) :
    reject c r s = { s with
      err := true
      errcode := if s.err then s.errcode else c
      response := some (.error (if r then some 0x00000000 else none)) } := by
  obtain ⟨⟨buf, fill, bitcnt, H, finished, err, errcode, data⟩, datapath, draws, response, pending⟩ := s
  cases err <;> rfl

/-! ## `compressBuffer`, `resetEngine` -/

@[simp] theorem compressBuffer_toEngine (s : State) :
    (compressBuffer s).toEngine = { s.toEngine with H := compress s.H s.buf } := rfl
@[simp] theorem compressBuffer_datapath (s : State) : (compressBuffer s).datapath = freeDatapath s.draws := rfl
@[simp] theorem compressBuffer_draws (s : State) : (compressBuffer s).draws = s.draws + 1 := rfl
@[simp] theorem compressBuffer_response (s : State) : (compressBuffer s).response = s.response := rfl
@[simp] theorem compressBuffer_pending (s : State) : (compressBuffer s).pending = s.pending := rfl

@[simp] theorem resetEngine_toEngine (s : State) : (resetEngine s).toEngine = Engine.reset := rfl
@[simp] theorem resetEngine_datapath (s : State) : (resetEngine s).datapath = freeDatapath s.draws := rfl
@[simp] theorem resetEngine_draws (s : State) : (resetEngine s).draws = s.draws + 1 := rfl
@[simp] theorem resetEngine_response (s : State) : (resetEngine s).response = none := rfl
@[simp] theorem resetEngine_pending (s : State) : (resetEngine s).pending = s.pending := rfl

end Sys2Proof.Laws
end

