-- ==== Sys2Proof/Laws/Ops.lean ====
section
/-! SUPPORT. One lemma for each shared operation that says what it can do: absorbing bytes (spec R106), the padding
controller (R113), and what each instruction's meaning can do to the state. -/

namespace Sys2Proof.Laws

open Sys2Proof.Machine

/-! ## `appendByte` and `appendBytes` -/

/-- A byte that does not fill the block (R106). -/
theorem appendByte_room (x : Byte) (s : State) (h : s.fill.val + 1 < 64) :
    appendByte x s = setFill ⟨s.fill.val + 1, h⟩ (setBuf (s.buf.set s.fill x) s) := by
  simp [appendByte, h]

/-- The byte that fills the block (R106). -/
theorem appendByte_full (x : Byte) (s : State) (h : s.fill.val = 63) :
    appendByte x s = setFill 0 (compressBuffer (setBuf (s.buf.set s.fill x) s)) := by
  simp [appendByte, h]

/-- Everything absorbing a byte can do. -/
theorem appendByte_cases (x : Byte) (s : State) :
    (∃ h : s.fill.val + 1 < 64, appendByte x s = setFill ⟨s.fill.val + 1, h⟩ (setBuf (s.buf.set s.fill x) s)) ∨
    (s.fill.val = 63 ∧ appendByte x s = setFill 0 (compressBuffer (setBuf (s.buf.set s.fill x) s))) := by
  by_cases h : s.fill.val + 1 < 64
  · exact .inl ⟨h, appendByte_room x s h⟩
  · exact .inr ⟨by omega, appendByte_full x s (by omega)⟩

/-- What absorbing a byte never changes. -/
theorem appendByte_frame (x : Byte) (s : State) :
    (appendByte x s).bitcnt = s.bitcnt ∧ (appendByte x s).finished = s.finished ∧ (appendByte x s).err = s.err ∧
    (appendByte x s).errcode = s.errcode ∧ (appendByte x s).data = s.data ∧
    (appendByte x s).response = s.response ∧ (appendByte x s).pending = s.pending := by
  obtain ⟨h, e⟩ | ⟨h, e⟩ := appendByte_cases x s <;> simp [e]

/-- The buffer after absorbing a byte: written at `fill`, whether or not the block is compressed (R106, R170). -/
theorem appendByte_buf (x : Byte) (s : State) : (appendByte x s).buf = s.buf.set s.fill x := by
  obtain ⟨h, e⟩ | ⟨h, e⟩ := appendByte_cases x s <;> simp [e]

theorem appendByte_fill (x : Byte) (s : State) : (appendByte x s).fill.val = (s.fill.val + 1) % 64 := by
  obtain ⟨h, e⟩ | ⟨h, e⟩ := appendByte_cases x s
  · simp [e, Nat.mod_eq_of_lt h]
  · simp [e, h]

theorem appendBytes_append (xs ys : List Byte) (s : State) :
    appendBytes (xs ++ ys) s = appendBytes ys (appendBytes xs s) := by
  induction xs generalizing s with
  | nil => rfl
  | cons x xs ih => exact ih _

/-- What absorbing bytes never changes. -/
theorem appendBytes_frame (xs : List Byte) (s : State) :
    (appendBytes xs s).bitcnt = s.bitcnt ∧ (appendBytes xs s).finished = s.finished ∧
    (appendBytes xs s).err = s.err ∧ (appendBytes xs s).errcode = s.errcode ∧ (appendBytes xs s).data = s.data ∧
    (appendBytes xs s).response = s.response ∧ (appendBytes xs s).pending = s.pending := by
  induction xs generalizing s with
  | nil => simp [appendBytes]
  | cons x xs ih =>
    have h := appendByte_frame x s
    have h' := ih (appendByte x s)
    simp only [appendBytes]
    exact ⟨h'.1.trans h.1, h'.2.1.trans h.2.1, h'.2.2.1.trans h.2.2.1, h'.2.2.2.1.trans h.2.2.2.1,
      h'.2.2.2.2.1.trans h.2.2.2.2.1, h'.2.2.2.2.2.1.trans h.2.2.2.2.2.1,
      h'.2.2.2.2.2.2.trans h.2.2.2.2.2.2⟩

/-- The fill count after absorbing bytes (R106). -/
theorem appendBytes_fill (xs : List Byte) (s : State) :
    (appendBytes xs s).fill.val = (s.fill.val + xs.length) % 64 := by
  induction xs generalizing s with
  | nil => exact (Nat.mod_eq_of_lt s.fill.isLt).symm
  | cons x xs ih => simp only [appendBytes, ih, appendByte_fill, List.length_cons]; omega

/-- Absorbing bytes that leave room in the block: no compression, and the bytes stand from `fill` on (R106). -/
theorem appendBytes_room (xs : List Byte) (s : State) (h : s.fill.val + xs.length < 64) :
    (appendBytes xs s).fill.val = s.fill.val + xs.length ∧ (appendBytes xs s).H = s.H ∧
    (appendBytes xs s).draws = s.draws ∧ (appendBytes xs s).datapath = s.datapath ∧
    ∀ i : Fin 64, (appendBytes xs s).buf[i] =
      if s.fill.val ≤ i.val then (xs[i.val - s.fill.val]?).getD s.buf[i] else s.buf[i] := by
  induction xs generalizing s with
  | nil => simp [appendBytes]
  | cons x xs ih =>
    simp only [List.length_cons] at h
    have h1 : s.fill.val + 1 < 64 := by omega
    have e := appendByte_room x s h1
    obtain ⟨s1, hs1⟩ : ∃ s1, s1 = appendByte x s := ⟨_, rfl⟩
    have e1 : s1.fill.val = s.fill.val + 1 := by rw [hs1, e]; rfl
    have e2 : s1.buf = s.buf.set s.fill x := hs1 ▸ appendByte_buf x s
    have e3 : s1.H = s.H ∧ s1.draws = s.draws ∧ s1.datapath = s.datapath := by rw [hs1, e]; simp
    obtain ⟨a, b, c, d, f⟩ := ih s1 (by omega)
    have e0 : appendBytes (x :: xs) s = appendBytes xs s1 := by rw [hs1]; rfl
    rw [e0]
    refine ⟨by rw [a]; simp; omega, by rw [b, e3.1], by rw [c, e3.2.1], by rw [d, e3.2.2], ?_⟩
    intro i
    rw [f i, e2, e1]
    simp only [Fin.getElem_fin, Vector.getElem_set]
    by_cases hi : s.fill.val = i.val
    · simp [hi]
    · by_cases h' : s.fill.val ≤ i.val
      · have : i.val - s.fill.val = (i.val - (s.fill.val + 1)) + 1 := by omega
        rw [if_pos (by omega), if_pos h', if_neg hi, this, List.getElem?_cons_succ]
      · rw [if_neg (by omega), if_neg h', if_neg hi]

/-- Absorbing bytes writes no position of the buffer but those from `fill` on, counted modulo 64 (R106). -/
theorem appendBytes_buf (xs : List Byte) (s : State) (i : Fin 64)
    (h : ∀ k, k < xs.length → i.val ≠ (s.fill.val + k) % 64) : (appendBytes xs s).buf[i] = s.buf[i] := by
  induction xs generalizing s with
  | nil => rfl
  | cons x xs ih =>
    simp only [appendBytes]
    rw [ih]
    · rw [appendByte_buf]
      have := h 0 (by simp)
      simp only [Fin.getElem_fin, Vector.getElem_set]
      rw [if_neg (by have := s.fill.isLt; omega)]
    · intro k hk
      have := h (k+1) (by simpa using hk)
      rw [appendByte_fill]; omega

/-- Byte `k` of an `UPDATE` (R105). -/
theorem updateBytes_get (data : Word) (nb k : Nat) :
    (updateBytes data nb)[k]? = if k < nb then some (dataByte data k) else none := by
  simp only [updateBytes, List.getElem?_map]
  split <;> simp [*]

/-! ## `pad` -/

/-- The padding controller where the length fits into the block (R113, R114). -/
theorem pad_one_block (s : State) (h : s.fill.val ≤ 55) :
    pad s = setFill 0 (compressBuffer
      (setBuf (lastBlock s.bitcnt (s.fill.val + 1) (s.buf.set s.fill 0x80)) (setBuf (s.buf.set s.fill 0x80) s))) := by
  rw [pad, padFrom, if_neg (by omega)]
  rfl

/-- The padding controller where the length needs a second block (R113, R114). -/
theorem pad_two_blocks (s : State) (h : 56 ≤ s.fill.val) :
    pad s = setFill 0 (compressBuffer (setBuf (lastBlock s.bitcnt 0 zeroBlock) (setBuf zeroBlock (compressBuffer
      (setBuf (zeroFill (s.fill.val + 1) 63 (s.buf.set s.fill 0x80)) (setBuf (s.buf.set s.fill 0x80) s)))))) := by
  rw [pad, padFrom, if_pos (by omega)]
  rfl

/-- What the padding controller never changes, and where it leaves `fill` (R113). -/
theorem pad_frame (s : State) :
    (pad s).bitcnt = s.bitcnt ∧ (pad s).finished = s.finished ∧ (pad s).err = s.err ∧
    (pad s).errcode = s.errcode ∧ (pad s).data = s.data ∧ (pad s).response = s.response ∧
    (pad s).pending = s.pending ∧ (pad s).fill = 0 := by
  by_cases h : s.fill.val ≤ 55
  · simp [pad_one_block s h]
  · simp [pad_two_blocks s (by omega)]

/-! ## Sizes -/

@[simp] theorem updateBytes_length (data : Word) (nb : Nat) : (updateBytes data nb).length = nb := by
  simp [updateBytes]

@[simp] theorem beBytes32_length (w : Word) : (beBytes32 w).length = 4 := rfl

@[simp] theorem beBytes64_length (v : Count) : (beBytes64 v).length = 8 := rfl

end Sys2Proof.Laws
end

