-- ==== Sys2Proof/Laws/Absorb.lean ====
section
/-! SUPPORT. Absorbing bytes against lists: the valid tail of the buffer (spec R24), and the fold of whole blocks that
absorbing performs (R26, R109). -/

namespace Sys2Proof.Laws

open Sys2Proof.Machine

/-- The valid bytes `buf[0..fill-1]`, in message order (R24). -/
def tailOf (s : State) : List Byte := s.buf.toList.take s.fill.val

theorem tailOf_length (s : State) : (tailOf s).length = s.fill.val := by
  simp [tailOf]

theorem tailOf_get (s : State) (i : Fin 64) (h : i.val < s.fill.val) : (tailOf s)[i.val]? = some s.buf[i] := by
  simp [tailOf, h]

/-- A list with the valid bytes is the tail. -/
theorem tailOf_eq {s : State} {xs : List Byte} (hl : xs.length = s.fill.val)
    (h : ∀ i : Fin 64, i.val < s.fill.val → some s.buf[i] = xs[i.val]?) : tailOf s = xs := by
  apply List.ext_getElem?
  intro i
  have := s.fill.isLt
  by_cases hi : i < s.fill.val
  · rw [← h ⟨i, by omega⟩ hi]; exact tailOf_get s ⟨i, by omega⟩ hi
  · rw [List.getElem?_eq_none (by rw [tailOf_length]; omega), List.getElem?_eq_none (by omega)]

theorem blockOf_toList (b : Block) (xs : List Byte) : blockOf (b.toList ++ xs) = b := by
  apply block_ext
  intro i
  simp only [blockOf, Fin.getElem_fin, Vector.getElem_ofFn, List.getD_eq_getElem?_getD]
  rw [List.getElem?_append_left (by simp)]
  simp

/-- Everything absorbing bytes does to `H`, `fill` and the tail (R106, R109): the whole blocks of the old tail and the
new bytes are folded, and what is left over is the new tail. -/
theorem appendBytes_spec (xs : List Byte) (s : State) :
    let T := tailOf s ++ xs
    let t := appendBytes xs s
    t.H = foldBlocks (T.length / 64) s.H T ∧ t.fill.val = T.length % 64 ∧
      tailOf t = T.drop (64 * (T.length / 64)) := by
  induction xs generalizing s with
  | nil =>
    have := s.fill.isLt
    have h0 : (tailOf s).length / 64 = 0 := by rw [tailOf_length]; omega
    simp only [List.append_nil, appendBytes, h0]
    exact ⟨rfl, by rw [tailOf_length]; omega, by simp⟩
  | cons x xs ih =>
    intro T t
    have ht : t = appendBytes xs (appendByte x s) := rfl
    obtain ⟨h, e⟩ | ⟨h, e⟩ := appendByte_cases x s
    · have hT : tailOf (appendByte x s) ++ xs = T := by
        have : tailOf (appendByte x s) = tailOf s ++ [x] := by
          symm
          apply (tailOf_eq _ _).symm
          · simp [tailOf_length, e]
          · intro i hi
            have hf : (appendByte x s).fill.val = s.fill.val + 1 := by rw [e]; rfl
            rw [hf] at hi
            rw [appendByte_buf]
            simp only [Fin.getElem_fin, Vector.getElem_set]
            by_cases h' : s.fill.val = i.val
            · rw [if_pos h', ← h', List.getElem?_append_right (by rw [tailOf_length])]
              simp [tailOf_length]
            · rw [if_neg h', List.getElem?_append_left (by rw [tailOf_length]; omega), tailOf_get s i (by omega)]
              rfl
        rw [this]; simp [T]
      have hH : (appendByte x s).H = s.H := by rw [e]; rfl
      have := ih (appendByte x s)
      simp only [hT, hH] at this
      rw [ht]; exact this
    · have hbl : T = (s.buf.set s.fill x).toList ++ xs := by
        have : tailOf s ++ [x] = (s.buf.set s.fill x).toList := by
          apply List.ext_getElem?
          intro i
          by_cases hi : i < 63
          · rw [List.getElem?_append_left (by rw [tailOf_length]; omega),
              show (tailOf s)[i]? = _ from tailOf_get s ⟨i, by omega⟩ (by rw [h]; exact hi)]
            have : ¬ s.fill.val = i := by omega
            rw [List.getElem?_eq_getElem (by simp; omega), Vector.getElem_toList, Vector.getElem_set, if_neg this]
            rfl
          · by_cases h63 : i = 63
            · subst h63
              rw [List.getElem?_append_right (by rw [tailOf_length]; omega), tailOf_length]
              rw [List.getElem?_eq_getElem (l := (s.buf.set s.fill x).toList) (by simp), Vector.getElem_toList,
                Vector.getElem_set, if_pos h]
              simp [h]
            · rw [List.getElem?_eq_none (by simp [tailOf_length]; omega), List.getElem?_eq_none (by simp; omega)]
        rw [← this]; simp [T]
      have hH : (appendByte x s).H = compress s.H (s.buf.set s.fill x) := by rw [e]; rfl
      have hz : tailOf (appendByte x s) = [] := by
        apply List.eq_nil_of_length_eq_zero; rw [tailOf_length, e]; rfl
      have := ih (appendByte x s)
      simp only [hz, List.nil_append, hH] at this
      rw [ht]
      have hlen : T.length = xs.length + 64 := by rw [hbl]; simp; omega
      have hd : T.length / 64 = xs.length / 64 + 1 := by omega
      have hdrop : T.drop 64 = xs := by rw [hbl]; rw [List.drop_left' (by simp)]
      have hB : blockOf T = s.buf.set s.fill x := by rw [hbl, blockOf_toList]
      refine ⟨?_, ?_, ?_⟩
      · rw [this.1, hd, foldBlocks, hdrop, hB]
      · rw [this.2.1, hlen]; omega
      · rw [this.2.2, hd, Nat.mul_add, Nat.add_comm (64 * _), ← List.drop_drop, Nat.mul_one, hdrop]

theorem foldBlocks_add (a b : Nat) (h : Digest) (bs : List Byte) :
    foldBlocks (a + b) h bs = foldBlocks b (foldBlocks a h bs) (bs.drop (64 * a)) := by
  induction a generalizing h bs with
  | zero => simp [foldBlocks]
  | succ a ih =>
    rw [Nat.succ_add, foldBlocks, ih, foldBlocks, List.drop_drop]
    congr 2; omega

theorem blockOf_append (xs ys : List Byte) (h : 64 ≤ xs.length) : blockOf (xs ++ ys) = blockOf xs := by
  apply block_ext
  intro i
  simp only [blockOf, Fin.getElem_fin, Vector.getElem_ofFn, List.getD_eq_getElem?_getD]
  rw [List.getElem?_append_left (by omega)]

/-- Folding whole blocks reads nothing behind them. -/
theorem foldBlocks_prefix (a : Nat) (h : Digest) (xs ys : List Byte) (hl : 64 * a ≤ xs.length) :
    foldBlocks a h (xs ++ ys) = foldBlocks a h xs := by
  induction a generalizing h xs with
  | zero => rfl
  | succ a ih =>
    rw [foldBlocks, blockOf_append _ _ (by omega), List.drop_append_of_le_length (by omega),
      ih _ _ (by simp; omega)]
    rfl

end Sys2Proof.Laws
end

