-- ==== Sys2Proof/Laws/Compression.lean ====
section
/-! SUPPORT. The message schedule's length and how it grows (spec R171, R172). -/

namespace Sys2Proof.Laws

open Sys2Proof.Machine

@[simp] theorem reinterpret_length (b : Block) : (reinterpret b).length = 16 := by simp [reinterpret]

@[simp] theorem extendSchedule_length (n : Nat) (ws : List Word) :
    (extendSchedule n ws).length = ws.length + n := by
  induction n generalizing ws with
  | zero => rfl
  | succ n ih => simp [extendSchedule, ih]; omega

/-- Extending a schedule keeps the words it already has, at the old end of the list. -/
theorem extendSchedule_keeps (n : Nat) (ws : List Word) :
    ∃ new : List Word, new.length = n ∧ extendSchedule n ws = new ++ ws := by
  induction n generalizing ws with
  | zero => exact ⟨[], rfl, rfl⟩
  | succ n ih =>
    obtain ⟨new, hlen, h⟩ :=
      ih (scheduleWord (ws.getD 2 0) (ws.getD 7 0) (ws.getD 13 0) (ws.getD 15 0) :: ws)
    exact ⟨new ++ [scheduleWord (ws.getD 2 0) (ws.getD 7 0) (ws.getD 13 0) (ws.getD 15 0)],
      by simp [hlen], by rw [extendSchedule, h, List.append_assoc]; rfl⟩

theorem extendSchedule_add (m n : Nat) (ws : List Word) :
    extendSchedule (m + n) ws = extendSchedule n (extendSchedule m ws) := by
  induction m generalizing ws with
  | zero => simp [extendSchedule]
  | succ m ih => rw [Nat.succ_add]; exact ih _

/-- The engine's rotation is the library's (R9). -/
theorem rotl_eq_rotateLeft (x : Word) (n : Nat) (h : n < 32) : rotl x n = x.rotateLeft n := by
  rw [rotl, BitVec.rotateLeft, Nat.mod_eq_of_lt h, BitVec.rotateLeftAux]

theorem runRounds_append (t : Nat) (ws ws' : List Word) (v : Working) :
    runRounds t (ws ++ ws') v = runRounds (t + ws.length) ws' (runRounds t ws v) := by
  induction ws generalizing t v with
  | nil => rfl
  | cons w ws ih => simp [runRounds, ih]; congr 1; omega

/-- The schedule has 80 words (R172). -/
@[simp] theorem schedule_length (b : Block) : (schedule b).length = 80 := by simp [schedule]

/-- The schedule's first 16 words (R171). -/
theorem schedule_head (b : Block) (j : Nat) (hj : j < 16) :
    (schedule b)[j]? = some (blockWord b j) := by
  obtain ⟨new, hl, he⟩ := extendSchedule_keeps 64 (reinterpret b).reverse
  rw [schedule, he]
  simp only [List.reverse_append, List.reverse_reverse]
  rw [List.getElem?_append_left (by simpa using hj)]
  simp [reinterpret, hj]

/-- The schedule's recurrence, on the words read with a default that is never met (R172). -/
theorem schedule_get (b : Block) (t : Nat) (h16 : 16 ≤ t) (h80 : t < 80) :
    let W := fun k => (schedule b)[k]?.getD 0
   W t = scheduleWord (W (t-3)) (W (t-8)) (W (t-14)) (W (t-16)) := by
  intro W
  obtain ⟨n, hn⟩ : ∃ n, n = t - 16 := ⟨_, rfl⟩
  obtain ⟨m, hm⟩ : ∃ m, 64 = n + (m + 1) := ⟨63 - n, by omega⟩
  obtain ⟨ws, hws⟩ : ∃ ws, ws = extendSchedule n (reinterpret b).reverse := ⟨_, rfl⟩
  have hlen : ws.length = 16 + n := by rw [hws]; simp
  have he : extendSchedule 64 (reinterpret b).reverse =
      extendSchedule m (scheduleWord (ws.getD 2 0) (ws.getD 7 0) (ws.getD 13 0) (ws.getD 15 0) :: ws) := by
    rw [hm, extendSchedule_add, ← hws]; rfl
  obtain ⟨new, hl, he2⟩ :=
    extendSchedule_keeps m (scheduleWord (ws.getD 2 0) (ws.getD 7 0) (ws.getD 13 0) (ws.getD 15 0) :: ws)
  have hs : schedule b =
      ws.reverse ++ scheduleWord (ws.getD 2 0) (ws.getD 7 0) (ws.getD 13 0) (ws.getD 15 0) :: new.reverse := by
    rw [schedule, he, he2]; simp
  have hold : ∀ k, 1 ≤ k → k ≤ 16 → W (t - k) = ws.getD (k - 1) 0 := by
    intro k h1 h2
    simp only [W, hs]
    rw [List.getElem?_append_left (by simp; omega), List.getElem?_reverse (by omega)]
    rw [List.getD_eq_getElem?_getD]
    congr 2; omega
  have hnew : W t = scheduleWord (ws.getD 2 0) (ws.getD 7 0) (ws.getD 13 0) (ws.getD 15 0) := by
    simp only [W, hs]
    rw [List.getElem?_append_right (by simp; omega)]
    rw [show t - ws.reverse.length = 0 by simp; omega]
    rfl
  rw [hnew, hold 3 (by omega) (by omega), hold 8 (by omega) (by omega),
    hold 14 (by omega) (by omega), hold 16 (by omega) (by omega)]

/-- One round, with the library's rotation (R177). -/
theorem roundStep_eq (t : Nat) (w : Word) (v : Working) :
    roundStep t w v = {
      a := v.a.rotateLeft 5 + roundFunction t v.b v.c v.d + v.e + w + roundConstant t
      b := v.a, c := v.b.rotateLeft 30, d := v.c, e := v.d } := by
  rw [roundStep, rotl_eq_rotateLeft _ _ (by decide), rotl_eq_rotateLeft _ _ (by decide)]

theorem runDatapath_succ (n : Nat) (d : Datapath) : runDatapath (n + 1) d = clockDatapath (runDatapath n d) := by
  induction n generalizing d with
  | zero => rfl
  | succ n ih => rw [runDatapath, ih]; rfl

end Sys2Proof.Laws
end

