-- ==== Sys2Proof/Laws/Decode.lean ====
section
/-! SUPPORT. The decoder seen from the transaction: which instruction a read or a write of each size and offset is
(spec R76, R77). -/

namespace Sys2Proof.Laws

open Sys2Proof.Machine

/-- A read, by its size and offset (R77). -/
theorem decodeTransaction_read (size : Size) (off : BitVec 6) :
    decodeTransaction (.read size off) =
      if size ≠ .word then .error .illegalAccess
      else if off = 0x04 then .ok .rdData
      else if off = 0x08 then .ok .rdStatus
      else if off = 0x0C then .ok .rdBitcntLo
      else if off = 0x10 then .ok .rdBitcntHi
      else if off = 0x14 then .ok .rdDigest0
      else if off = 0x18 then .ok .rdDigest1
      else if off = 0x1C then .ok .rdDigest2
      else if off = 0x20 then .ok .rdDigest3
      else if off = 0x24 then .ok .rdDigest4
      else .error .illegalAccess := by
  cases size <;> revert off <;> decide

theorem write_desc_wrCmd (size : Size) (off : BitVec 6) (v : Word) :
    (Transaction.write size off v).desc = 0x180 ↔ size = .word ∧ off = 0x00 := by
  cases size <;> revert off <;> simp only [Transaction.desc] <;> decide

theorem write_desc_wrData (size : Size) (off : BitVec 6) (v : Word) :
    (Transaction.write size off v).desc = 0x184 ↔ size = .word ∧ off = 0x04 := by
  cases size <;> revert off <;> simp only [Transaction.desc] <;> decide

/-- No write has the descriptor of a read. -/
theorem write_desc_top (size : Size) (off : BitVec 6) (v : Word) :
    (Transaction.write size off v).desc.getLsbD 8 = true := by
  cases size <;> revert off <;> simp only [Transaction.desc] <;> decide

/-- A write, by its size and offset (R77). -/
theorem decodeTransaction_write (size : Size) (off : BitVec 6) (v : Word) :
    decodeTransaction (.write size off v) =
      if size = .word ∧ off = 0x00 then .ok (.wrCmd v)
      else if size = .word ∧ off = 0x04 then .ok (.wrData v)
      else .error .illegalAccess := by
  have top := write_desc_top size off v
  have low : ∀ d : BitVec 9, d.getLsbD 8 = false → (Transaction.write size off v).desc ≠ d := by
    rintro d hd rfl
    exact absurd (hd.symm.trans top) (by decide)
  simp only [decodeTransaction, decodeDesc, write_desc_wrCmd, write_desc_wrData, Transaction.wdata]
  simp only [low 0x084 (by decide), low 0x088 (by decide), low 0x08C (by decide), low 0x090 (by decide),
    low 0x094 (by decide), low 0x098 (by decide), low 0x09C (by decide), low 0x0A0 (by decide),
    low 0x0A4 (by decide), if_false]

/-- The transaction made from a descriptor has that descriptor (R76). -/
theorem transactionOfDesc_desc (d : BitVec 9) (v : Word) : (transactionOfDesc d v).desc = d := by
  have same : (transactionOfDesc d v).desc = (transactionOfDesc d 0).desc := by
    unfold transactionOfDesc
    dsimp only
    split <;> rfl
  rw [same]
  clear same
  revert d
  decide

/-- A command word with a reserved bit set is illegal (R73). -/
theorem decodeCmd_reserved (c : Word) (h : 128 ≤ c.toNat) : decodeCmd c = .illegal := by
  have : cmdReserved c ≠ 0 := by
    intro h0
    have h1 := congrArg BitVec.toNat h0
    simp only [cmdReserved, BitVec.extractLsb'_toNat, Nat.shiftRight_eq_div_pow] at h1
    have h2 : c.toNat / 2 ^ 7 % 2 ^ 25 = 0 := h1
    have := c.isLt
    omega
  rw [decodeCmd, if_pos this]

end Sys2Proof.Laws
end

