-- ==== Sys2Proof/Laws/Exec.lean ====
section
/-! SUPPORT. What a step can do, said once: the cases of each meaning that decides between several outcomes, and of one
step. -/

namespace Sys2Proof.Laws

open Sys2Proof.Machine

/-- The state after an accepted `UPDATE nb` (R104). -/
abbrev updated (nb : BitVec 3) (s : State) : State :=
  okayWrite (appendBytes (updateBytes s.data nb.toNat) (setBitcnt (s.bitcnt + BitVec.ofNat 64 (8 * nb.toNat)) s))

/-- The state after `INIT` (R100). -/
abbrev initialized (s : State) : State := okayWrite (releaseDatapath (setEngine (initEngine s.toEngine) s))

/-- The state after an accepted `FINISH` (R112). -/
abbrev closed (s : State) : State := okayWrite (setFinished true (pad s))

theorem nbLegal_iff (nb : BitVec 3) : nbLegal nb = true ↔ nb.toNat ≤ 4 := by simp [nbLegal]

/-- An accepted `UPDATE nb`, by what R104 asks for. -/
theorem execUpdate_accepted (nb : BitVec 3) (s : State) (hnb : nb.toNat ≤ 4) (hf : s.finished = false)
    (hl : s.bitcnt.toNat + 8 * nb.toNat ≤ 2 ^ 64 - 1) : execUpdate nb s = .next (updated nb s) := by
  have h1 : nbLegal nb = true := (nbLegal_iff nb).2 hnb
  have h2 : lengthOverflows s.bitcnt nb.toNat = false := by simp [lengthOverflows]; omega
  rw [execUpdate, if_neg (by simp [h1]), if_neg (by simp [hf]), if_neg (by simp [h2])]

theorem execUpdate_finished (nb : BitVec 3) (s : State) (hnb : nb.toNat ≤ 4) (hf : s.finished = true) :
    execUpdate nb s = .next (reject .updateAfterFinish false s) := by
  simp [execUpdate, (nbLegal_iff nb).2 hnb, hf]

theorem execUpdate_overflow (nb : BitVec 3) (s : State) (hnb : nb.toNat ≤ 4) (hf : s.finished = false)
    (hl : s.bitcnt.toNat + 8 * nb.toNat > 2 ^ 64 - 1) :
    execUpdate nb s = .next (reject .lengthOverflow false s) := by
  have h2 : lengthOverflows s.bitcnt nb.toNat = true := by simp [lengthOverflows]; omega
  simp [execUpdate, (nbLegal_iff nb).2 hnb, hf, h2]

/-- Everything `UPDATE nb` can do. -/
theorem execUpdate_cases {nb : BitVec 3} {s t : State} (h : execUpdate nb s = .next t) :
    (∃ code, t = reject code false s) ∨
    (nb.toNat ≤ 4 ∧ s.finished = false ∧ s.bitcnt.toNat + 8 * nb.toNat ≤ 2 ^ 64 - 1 ∧ t = updated nb s) := by
  unfold execUpdate at h
  split_ifs at h with h1 h2 h3 <;> injection h with h <;> subst h
  · exact .inl ⟨_, rfl⟩
  · exact .inl ⟨_, rfl⟩
  · exact .inl ⟨_, rfl⟩
  · refine .inr ⟨?_, by simpa using h2, ?_, rfl⟩
    · simpa [nbLegal] using h1
    · simp [lengthOverflows] at h3; omega

/-- Everything `FINISH` can do. -/
theorem execFinish_cases {s t : State} (h : execFinish s = .next t) :
    (s.finished = true ∧ t = reject .alreadyFinished false s) ∨ (s.finished = false ∧ t = closed s) := by
  unfold execFinish at h
  split_ifs at h with h1 <;> injection h with h <;> subst h
  · exact .inl ⟨h1, rfl⟩
  · exact .inr ⟨by simpa using h1, rfl⟩

/-- Everything one transaction can do (R140, R141): a rejection, one of the three commands, a `DATA` write, or a read
that changes nothing but the response. -/
theorem performTransaction_cases {tr : Transaction} {s t : State} (h : performTransaction tr s = .next t) :
    (∃ code, t = reject code tr.isRead s) ∨
    (∃ v, tr = .write .word 0x00 v ∧ decodeCmd v = .init ∧ t = initialized s) ∨
    (∃ v nb, tr = .write .word 0x00 v ∧ decodeCmd v = .update nb ∧ nb.toNat ≤ 4 ∧ s.finished = false ∧
      s.bitcnt.toNat + 8 * nb.toNat ≤ 2 ^ 64 - 1 ∧ t = updated nb s) ∨
    (∃ v, tr = .write .word 0x00 v ∧ decodeCmd v = .finish ∧ s.finished = false ∧ t = closed s) ∨
    (∃ v, tr = .write .word 0x04 v ∧ t = okayWrite (setData v s)) ∨
    (∃ off v, tr = .read .word off ∧ t = okayRead v s) := by
  cases tr with
  | read size off =>
    rw [performTransaction, decodeTransaction_read] at h
    by_cases hs : size = .word
    · subst hs
      have gated : ∀ k, .next (readDigest k s) = Host.Outcome.next (φ := Fault) (ρ := Refusal) t →
          (∃ code, t = reject code true s) ∨ ∃ v, t = okayRead v s := by
        intro k hk
        injection hk with hk
        subst hk
        unfold readDigest
        split
        · exact .inr ⟨_, rfl⟩
        · exact .inl ⟨_, rfl⟩
      suffices done : (∃ code, t = reject code true s) ∨ ∃ v, t = okayRead v s from
        done.imp_right fun ⟨v, e⟩ => .inr (.inr (.inr (.inr ⟨off, v, rfl, e⟩)))
      simp only [ne_eq, not_true_eq_false, if_false] at h
      split_ifs at h <;>
        first
        | exact gated _ h
        | (injection h with h; subst h; first | exact .inr ⟨_, rfl⟩ | exact .inl ⟨_, rfl⟩)
    · simp only [ne_eq, hs, not_false_eq_true, if_true] at h
      injection h with h
      exact .inl ⟨_, h.symm⟩
  | write size off v =>
    rw [performTransaction, decodeTransaction_write] at h
    split_ifs at h with h0 h1
    · obtain ⟨rfl, rfl⟩ := h0
      simp only [exec, execWrCmd] at h
      split at h
      · injection h with h
        exact .inr (.inl ⟨v, rfl, ‹_›, h.symm⟩)
      · obtain ⟨code, e⟩ | ⟨h1, h2, h3, e⟩ := execUpdate_cases h
        · exact .inl ⟨code, e⟩
        · exact .inr (.inr (.inl ⟨v, _, rfl, ‹_›, h1, h2, h3, e⟩))
      · obtain ⟨-, e⟩ | ⟨h1, e⟩ := execFinish_cases h
        · exact .inl ⟨_, e⟩
        · exact .inr (.inr (.inr (.inl ⟨v, rfl, ‹_›, h1, e⟩)))
      · injection h with h
        exact .inl ⟨_, h.symm⟩
    · obtain ⟨rfl, rfl⟩ := h1
      injection h with h
      exact .inr (.inr (.inr (.inr (.inl ⟨v, rfl, h.symm⟩))))
    · injection h with h
      exact .inl ⟨_, h.symm⟩

/-- Every instruction answers a next state in every state (R140, "`Step` is total"). -/
theorem exec_total (i : Instr) (s : State) : ∃ t, exec i s = .next t := by
  have update : ∀ nb, ∃ t, execUpdate nb s = .next t := by
    intro nb
    unfold execUpdate
    split_ifs <;> exact ⟨_, rfl⟩
  have finish : ∃ t, execFinish s = .next t := by
    unfold execFinish
    split_ifs <;> exact ⟨_, rfl⟩
  cases i <;> simp only [exec] <;> try exact ⟨_, rfl⟩
  · exact update _
  · exact finish
  · unfold execWrCmd
    split
    · exact ⟨_, rfl⟩
    · exact update _
    · exact finish
    · exact ⟨_, rfl⟩

/-- Everything one step can do (R57, R215, R230, R231). -/
theorem step_cases {s t : State} (h : step s = .next t) :
    (s.pending = [] ∧ t = s) ∨
    (∃ tr rest, s.pending = .transact tr :: rest ∧ performTransaction tr { s with pending := rest } = .next t) ∨
    (∃ ev rest, s.pending = ev :: rest ∧ (ev = .reset ∨ ∃ tr, ev = .resetDuring tr) ∧
      t = resetEngine { s with pending := rest }) := by
  unfold step acceptAndPerform at h
  split at h
  · injection h with h
    exact .inl ⟨‹_›, h.symm⟩
  · rename_i ev rest hp
    cases ev with
    | transact tr => exact .inr (.inl ⟨tr, rest, hp, h⟩)
    | reset =>
      injection h with h
      exact .inr (.inr ⟨_, rest, hp, .inl rfl, h.symm⟩)
    | resetDuring tr =>
      injection h with h
      exact .inr (.inr ⟨_, rest, hp, .inr ⟨tr, rfl⟩, h.symm⟩)

end Sys2Proof.Laws
end

