-- ==== Sys2Proof/Laws/Independence.lean ====
section
/-! SUPPORT. Absorbing and padding neither read nor write the error record and the interface (spec R202, R57): they
commute with writing those. -/

namespace Sys2Proof.Laws

open Sys2Proof.Machine

/-- `s` with another error record, response and list of events to come. -/
def withOuter (f : Bool) (c : ErrCode) (r : Option Response) (p : List HostEvent) (s : State) : State :=
  { s with err := f, errcode := c, response := r, pending := p }

variable (f : Bool) (c : ErrCode) (r : Option Response) (p : List HostEvent)

theorem setBuf_withOuter (b : Block) (s : State) :
    setBuf b (withOuter f c r p s) = withOuter f c r p (setBuf b s) := rfl

theorem setFill_withOuter (n : Fin 64) (s : State) :
    setFill n (withOuter f c r p s) = withOuter f c r p (setFill n s) := rfl

theorem setBitcnt_withOuter (v : Count) (s : State) :
    setBitcnt v (withOuter f c r p s) = withOuter f c r p (setBitcnt v s) := rfl

theorem compressBuffer_withOuter (s : State) :
    compressBuffer (withOuter f c r p s) = withOuter f c r p (compressBuffer s) := by
  unfold compressBuffer
  rfl

theorem appendByte_withOuter (x : Byte) (s : State) :
    appendByte x (withOuter f c r p s) = withOuter f c r p (appendByte x s) := by
  by_cases h : s.fill.val + 1 < 64
  · rw [appendByte_room x s h, appendByte_room x (withOuter f c r p s) h]
    rfl
  · have h' : s.fill.val = 63 := by have := s.fill.isLt; omega
    rw [appendByte_full x s h', appendByte_full x (withOuter f c r p s) h']
    rfl

theorem appendBytes_withOuter (xs : List Byte) (s : State) :
    appendBytes xs (withOuter f c r p s) = withOuter f c r p (appendBytes xs s) := by
  induction xs generalizing s with
  | nil => rfl
  | cons x xs ih => simp only [appendBytes, appendByte_withOuter, ih]

theorem pad_withOuter (s : State) : pad (withOuter f c r p s) = withOuter f c r p (pad s) := by
  by_cases h : s.fill.val ≤ 55
  · rw [pad_one_block s h, pad_one_block (withOuter f c r p s) h]
    change setFill 0 (compressBuffer (setBuf (lastBlock s.bitcnt (s.fill.val + 1) (s.buf.set s.fill 0x80))
      (setBuf (s.buf.set s.fill 0x80) (withOuter f c r p s)))) = _
    rw [setBuf_withOuter, setBuf_withOuter, compressBuffer_withOuter, setFill_withOuter]
  · have h' : 56 ≤ s.fill.val := by omega
    rw [pad_two_blocks s h', pad_two_blocks (withOuter f c r p s) h']
    change setFill 0 (compressBuffer (setBuf (lastBlock s.bitcnt 0 zeroBlock) (setBuf zeroBlock (compressBuffer
      (setBuf (zeroFill (s.fill.val + 1) 63 (s.buf.set s.fill 0x80))
        (setBuf (s.buf.set s.fill 0x80) (withOuter f c r p s))))))) = _
    rw [setBuf_withOuter, setBuf_withOuter, compressBuffer_withOuter, setBuf_withOuter, setBuf_withOuter,
      compressBuffer_withOuter, setFill_withOuter]

end Sys2Proof.Laws
end

