-- ==== Sys2Proof/Laws/PerInstr.lean ====
section
/-! SUPPORT. Per instruction: its encoding is that of its row of spec/opcode_table.json. -/

namespace Sys2Proof.Laws.TableRow

/-- The row of spec/opcode_table.json: bits, mask and match, as the table numbers them. -/
structure Row where
  nbits : Nat
  mask : Nat
  value : Nat
  deriving DecidableEq, Repr

/-- The table, row by row. -/
def row : Instr → Row
  | .init => ⟨32, 0xFFFFFFFF, 0x00000001⟩
  | .update _ => ⟨32, 0xFFFFFF8F, 0x00000002⟩
  | .finish => ⟨32, 0xFFFFFFFF, 0x00000003⟩
  | .wrCmd _ => ⟨16, 0x1FF, 0x180⟩
  | .wrData _ => ⟨16, 0x1FF, 0x184⟩
  | .rdData => ⟨16, 0x1FF, 0x084⟩
  | .rdStatus => ⟨16, 0x1FF, 0x088⟩
  | .rdBitcntLo => ⟨16, 0x1FF, 0x08C⟩
  | .rdBitcntHi => ⟨16, 0x1FF, 0x090⟩
  | .rdDigest0 => ⟨16, 0x1FF, 0x094⟩
  | .rdDigest1 => ⟨16, 0x1FF, 0x098⟩
  | .rdDigest2 => ⟨16, 0x1FF, 0x09C⟩
  | .rdDigest3 => ⟨16, 0x1FF, 0x0A0⟩
  | .rdDigest4 => ⟨16, 0x1FF, 0x0A4⟩

/-- The bits of an encoding that the table gives its row. -/
def tableBits : Encoding → Nat
  | .cmd c => c.toNat
  | .bus desc _ => desc.toNat

/-- A well-formed instruction's encoding agrees with its row's fixed bits, and the decoder reads the instruction from
it. -/
def Statement (i : Instr) : Prop :=
  i.wf = true → tableBits (encode i) &&& (row i).mask = (row i).value ∧ decode (encode i) = .ok i

theorem init : Statement .init := fun _ => ⟨rfl, rfl⟩

theorem update (nb : BitVec 3) : Statement (.update nb) := by
  revert nb
  unfold Statement
  decide

theorem finish : Statement .finish := fun _ => ⟨rfl, rfl⟩

theorem wrCmd (v : Word) : Statement (.wrCmd v) :=
  fun _ => ⟨show (0x180 : BitVec 9).toNat &&& 0x1FF = 0x180 by decide, rfl⟩

theorem wrData (v : Word) : Statement (.wrData v) :=
  fun _ => ⟨show (0x184 : BitVec 9).toNat &&& 0x1FF = 0x184 by decide, rfl⟩

theorem rdData : Statement .rdData := fun _ => ⟨rfl, rfl⟩

theorem rdStatus : Statement .rdStatus := fun _ => ⟨rfl, rfl⟩

theorem rdBitcntLo : Statement .rdBitcntLo := fun _ => ⟨rfl, rfl⟩

theorem rdBitcntHi : Statement .rdBitcntHi := fun _ => ⟨rfl, rfl⟩

theorem rdDigest0 : Statement .rdDigest0 := fun _ => ⟨rfl, rfl⟩

theorem rdDigest1 : Statement .rdDigest1 := fun _ => ⟨rfl, rfl⟩

theorem rdDigest2 : Statement .rdDigest2 := fun _ => ⟨rfl, rfl⟩

theorem rdDigest3 : Statement .rdDigest3 := fun _ => ⟨rfl, rfl⟩

theorem rdDigest4 : Statement .rdDigest4 := fun _ => ⟨rfl, rfl⟩

end Sys2Proof.Laws.TableRow
end

