-- ==== Sys2Proof/Laws/Window.lean ====
section
/-! SUPPORT. What the routing of a host address is, inside the window and outside it (spec R56). -/

namespace Sys2Proof.Laws

open Sys2Proof.Machine

theorem windowOffset_inside (off : BitVec 6) : windowOffset (Config.engineBase + off.toNat) = some off := by
  have : off.toNat < 64 := off.isLt
  rw [windowOffset, if_pos ⟨Nat.le_add_right _ _, by simpa [Config.windowBytes] using this⟩]
  simp

theorem windowOffset_outside {addr : Nat} (h : addr < Config.engineBase ∨ Config.engineBase + 64 ≤ addr) :
    windowOffset addr = Config.windowAlias addr := by
  rw [windowOffset, if_neg]
  simp only [Config.windowBytes]
  omega

end Sys2Proof.Laws
end

