-- ==== Sys2Proof/Tests/Slice0.lean ====
section
/-! SUPPORT. The model's own tests: the operand check, words written out bit by bit from the spec's encodings, the spec's
worked vectors (spec 95_test_vectors.md), and for every statement with hypotheses a witness that meets them. -/

namespace Sys2Proof.Tests

open Sys2Proof.Machine

set_option maxRecDepth 20000

/-! ## Small states and what a test looks at -/

/-- `n` bytes 'a' absorbed after reset, without a compression: `n` is at most 63. -/
def absorbedAs (n : Fin 64) : State :=
  { State.reset with
    buf := Vector.ofFn fun i => if i.val < n.val then 0x61 else 0x00
    fill := n
    bitcnt := BitVec.ofNat 64 (8 * n.val) }

/-- "abc" absorbed after reset (95_test_vectors.md V-UPD-1). -/
def absorbedAbc : State :=
  { State.reset with
    buf := ((zeroBlock.set 0 0x61).set 1 0x62).set 2 0x63, fill := 3, bitcnt := 0x18, data := 0x61626300 }

/-- The digest registers after "abc" (95_test_vectors.md P1). -/
def abcDigest : Digest := #v[0xA9993E36, 0x4706816A, 0xBA3E2571, 0x7850C26C, 0x9CD0D89D]

/-- `FINISHED` with the digest of "abc" (95_test_vectors.md P1). -/
def finishedAbc : State :=
  { State.reset with H := abcDigest, bitcnt := 0x18, finished := true, data := 0x61626300 }

/-- The next state, if the outcome is one. -/
def nextOf (o : Host.Outcome State Fault Refusal) : Option State :=
  match o with
  | .next t => some t
  | .fault _ => none
  | .refused _ => none

/-- What `STATUS` reads after an outcome, and the response before it. -/
def statusAfter (o : Host.Outcome State Fault Refusal) : Option (Option Response × Word) :=
  (nextOf o).map fun t => (t.response, statusWord t.toEngine)

/-- The response of an outcome. -/
def responseOf (o : Host.Outcome State Fault Refusal) : Option Response := (nextOf o).bind (·.response)

/-- `H`, `fill` and `bitcnt` after an outcome. -/
def hashAfter (o : Host.Outcome State Fault Refusal) : Option (Digest × Fin 64 × Count) :=
  (nextOf o).map fun t => (t.H, t.fill, t.bitcnt)

/-- The state in which this transaction is offered, and nothing else. -/
def offered (tr : Transaction) (s : State) : State := { s with pending := [.transact tr] }

/-! ## The operand check -/

theorem test_wf_update_four : (Instr.update 4).wf = true := by decide

/-- R72: `NB` of 5, 6 and 7 is reserved. -/
theorem test_wf_refuses_reserved_counts :
    (Instr.update 5).wf = false ∧ (Instr.update 6).wf = false ∧ (Instr.update 7).wf = false := by decide

/-! ## Words written out from the spec's encodings (30_encoding.md R70, R71, R76, R77) -/

theorem test_decode_init : decode (.cmd 0b00000000000000000000000000000001) = .ok .init := by decide

theorem test_decode_update : decode (.cmd 0b00000000000000000000000000110010) = .ok (.update 3) := by decide

theorem test_decode_finish : decode (.cmd 0b00000000000000000000000000000011) = .ok .finish := by decide

theorem test_decode_wrCmd : decode (.bus 0b110000000 0x12345678) = .ok (.wrCmd 0x12345678) := by decide

theorem test_decode_wrData : decode (.bus 0b110000100 0xDEADBEEF) = .ok (.wrData 0xDEADBEEF) := by decide

theorem test_decode_rdData : decode (.bus 0b010000100 0) = .ok .rdData := by decide

theorem test_decode_rdStatus : decode (.bus 0b010001000 0) = .ok .rdStatus := by decide

theorem test_decode_rdBitcnt :
    decode (.bus 0b010001100 0) = .ok .rdBitcntLo ∧ decode (.bus 0b010010000 0) = .ok .rdBitcntHi := by decide

theorem test_decode_rdDigest :
    decode (.bus 0b010010100 0) = .ok .rdDigest0 ∧ decode (.bus 0b010011000 0) = .ok .rdDigest1 ∧
    decode (.bus 0b010011100 0) = .ok .rdDigest2 ∧ decode (.bus 0b010100000 0) = .ok .rdDigest3 ∧
    decode (.bus 0b010100100 0) = .ok .rdDigest4 := by decide

/-- R73, R71, R72: bit 31 set, `OP = 0`, `OP = 4`, `UPDATE 5`, `FINISH` with `NB = 1`. -/
theorem test_decode_refuses_commands :
    [0x80000001, 0x00000000, 0x00000004, 0x00000052, 0x00000013].map (fun c => decode (.cmd c)) =
      List.replicate 5 (.error .illegalCmd) := by decide

/-- V-ERR-5 to V-ERR-11: the descriptors that are rejected. -/
theorem test_decode_refuses_descriptors :
    [0x080, 0x188, 0x194, 0x0A8, 0x086, 0x104, 0x04C, 0x1C4].map (fun d => decode (.bus d 0)) =
      List.replicate 8 (.error .illegalAccess) := by decide

/-! ## Byte order, rounds and compression (95_test_vectors.md section 2) -/

/-- R10: the first byte is the most significant. -/
theorem test_be32 : be32 0x61 0x62 0x63 0x80 = 0x61626380 := by decide

/-- 95_test_vectors.md section 2.3. -/
theorem test_rotl :
    rotl 0x80000000 1 = 0x00000001 ∧ rotl 0x67452301 5 = 0xE8A4602C ∧ rotl 0xEFCDAB89 30 = 0x7BF36AE2 := by decide

/-- 95_test_vectors.md section 2.3, the last row. -/
theorem test_round_functions :
    ch 0x12345678 0x9ABCDEF0 0x0FEDCBA9 = 0x1FFDDFF1 ∧ parity 0x12345678 0x9ABCDEF0 0x0FEDCBA9 = 0x87654321 ∧
    maj 0x12345678 0x9ABCDEF0 0x0FEDCBA9 = 0x1ABCDEF8 := by decide

/-- R177: round 0 of the "abc" block from the initial `H`. -/
theorem test_round_zero :
    roundStep 0 0x61626380 (loadWorking iv) =
      ⟨0x0116FC33, 0x67452301, 0x7BF36AE2, 0x98BADCFE, 0x10325476⟩ := by decide

/-- V-CMP-1. -/
theorem test_compress_zero_block :
    compress iv zeroBlock = #v[0x92B404E5, 0x56588CED, 0x6C1ACD4E, 0xBF053F68, 0x09F73A93] := by decide +kernel

/-- V-CMP-2, by the iterative datapath. -/
theorem test_iterative_all_ones_block :
    compressIterative iv (Vector.replicate 64 0xFF) =
      #v[0xBAFBC2C8, 0x7C333226, 0x03F38E06, 0xC3E0F79C, 0x1F1B1475] := by decide +kernel

/-! ## Commands (95_test_vectors.md section 3) -/

/-- V-INIT-1: the digest goes, `data` stays. -/
theorem test_init_after_finish :
    (nextOf (execInit finishedAbc)).map (·.toEngine) = some { Engine.reset with data := 0x61626300 } := by decide

/-- V-INIT-2: `INIT` clears the error record. -/
theorem test_init_clears_error :
    statusAfter (execInit { State.reset with err := true, errcode := .resultBeforeFinish }) =
      some (some (.okay none), 0x00000000) := by decide

/-- V-UPD-3: the byte that fills the block. -/
theorem test_update_fills_block :
    hashAfter (execUpdate 1 { absorbedAs 63 with data := 0x61FFFFFF }) =
      some (#v[0xDA4968EB, 0x2E377C1F, 0x884E8F52, 0x83524BEB, 0xE74EBDBD], 0, 0x200) := by decide +kernel

/-- V-UPD-4: two bytes fill the block, two are left over. -/
theorem test_update_crosses_block :
    (nextOf (execUpdate 4 { absorbedAs 62 with data := 0x61616263 })).map
      (fun t => (t.H[0], t.buf[0], t.buf[1], t.buf[2], t.fill, t.bitcnt)) =
      some (0xDA4968EB, 0x62, 0x63, 0x61, 2, 0x210) := by decide +kernel

/-- V-FIN-2: `fill = 55`, one compression. -/
theorem test_finish_one_block :
    (nextOf (execFinish (absorbedAs 55))).map (fun t => (t.H, t.buf[55], t.buf[62], t.buf[63], t.draws)) =
      some (#v[0xC1C8BBDC, 0x22796E28, 0xC0E15163, 0xD20899B6, 0x5621D65A], 0x80, 0x01, 0xB8, 1) := by
  decide +kernel

/-- V-FIN-3: `fill = 56`, two compressions. -/
theorem test_finish_two_blocks :
    (nextOf (execFinish (absorbedAs 56))).map (fun t => (t.H, t.buf[55], t.buf[62], t.buf[63], t.draws)) =
      some (#v[0xC2DB330F, 0x6083854C, 0x99D4B5BF, 0xB6E8F29F, 0x201BE699], 0x00, 0x01, 0xC0, 2) := by
  decide +kernel

/-! ## Register transactions (95_test_vectors.md sections 3.4 and 3.5) -/

/-- V-UPD-1, as a step: the command word `0x00000032` written to `CMD`. -/
theorem test_step_wrCmd_update :
    statusAfter (step (offered (.write .word 0x00 0x00000032) { State.reset with data := 0x61626300 })) =
      some (some (.okay none), 0x00000300) := by decide

/-- V-ERR-12: in `FINISHED` at the length limit, the illegal word is what is reported. -/
theorem test_wrCmd_illegal_word_first :
    statusAfter (execWrCmd 0x00000052 { finishedAbc with bitcnt := 0xFFFFFFFFFFFFFFF8 }) =
      some (some (.error none), 0x00000013) := by decide

/-- V-ERR-13: the phase before the length limit. -/
theorem test_wrCmd_phase_before_length :
    statusAfter (execWrCmd 0x00000042 { finishedAbc with bitcnt := 0xFFFFFFFFFFFFFFF8 }) =
      some (some (.error none), 0x00000023) := by decide

/-- V-REG-1. -/
theorem test_wrData : (nextOf (execWrData 0xDEADBEEF State.reset)).map (·.data) = some 0xDEADBEEF := by decide

/-- V-REG-1. -/
theorem test_rdData :
    responseOf (execRdData { State.reset with data := 0xDEADBEEF }) = some (.okay (some 0xDEADBEEF)) := by decide

/-- V-UPD-8: `FILL = 0x3F`, `ERRCODE = 5`, `ERR = 1`. -/
theorem test_rdStatus :
    responseOf (execRdStatus { State.reset with fill := 63, err := true, errcode := .lengthOverflow }) =
      some (.okay (some 0x00003F52)) := by decide

/-- R146's example: bit 32 of the counter is in the high half. -/
theorem test_rdBitcnt_halves :
    responseOf (execRdBitcntHi { State.reset with bitcnt := 0x0000000100000000 }) = some (.okay (some 1)) ∧
    responseOf (execRdBitcntLo { State.reset with bitcnt := 0x0000000100000000 }) = some (.okay (some 0)) := by decide

/-- V-REG-5. -/
theorem test_rdDigest_finished :
    [execRdDigest0, execRdDigest1, execRdDigest2, execRdDigest3, execRdDigest4].map
      (fun run => responseOf (run finishedAbc)) =
      [some (.okay (some 0xA9993E36)), some (.okay (some 0x4706816A)), some (.okay (some 0xBA3E2571)),
        some (.okay (some 0x7850C26C)), some (.okay (some 0x9CD0D89D))] := by decide

/-- V-REG-6. -/
theorem test_rdDigest_absorbing :
    statusAfter (execRdDigest2 State.reset) = some (some (.error (some 0x00000000)), 0x00000042) := by decide

/-- V-ERR-14: a byte read of `DIGEST0` in `ABSORBING`, as a step. -/
theorem test_step_byte_read :
    statusAfter (step (offered (.read .byte 0x14) State.reset)) =
      some (some (.error (some 0x00000000)), 0x00000062) := by decide

/-- V-FIN-1, as a step on a word of the opcode table placed as the next instruction. -/
theorem test_placed_finish :
    hashAfter (step (State.reset.withFetchWord 32 0x00000003)) =
      some (#v[0xDA39A3EE, 0x5E6B4B0D, 0x3255BFEF, 0x95601890, 0xAFD80709], 0, 0) := by decide +kernel

/-- R231: a reset during a `DATA` write. -/
theorem test_reset_during_write :
    (nextOf (step { finishedAbc with pending := [.resetDuring (.write .word 0x04 0xDEADBEEF)] })).map
      (fun t => (t.toEngine, t.response)) = some (Engine.reset, none) := by decide

/-! ## Witnesses: states and operands that meet the hypotheses of the statements -/

theorem witness_ResetStateIsAsSpecified : (0 : BitVec 3).toNat ≤ 4 ∧ (4 : BitVec 3).toNat ≤ 4 := by decide

theorem witness_ResetEventReplacesTheEngineState :
    ({ finishedAbc with pending := [.reset, .reset] } : State).pending = .reset :: [.reset] ∧
    ({ finishedAbc with pending := [.resetDuring (rd .STATUS)] } : State).pending = .resetDuring (rd .STATUS) :: [] :=
  ⟨rfl, rfl⟩

/-- Sixty-three bytes have been absorbed. -/
theorem absorbed_absorbedAs : Absorbed (List.replicate 63 0x61) (absorbedAs 63).toEngine where
  bits := by decide
  fill := fun _ => by decide
  folded := fun _ => rfl
  tail := fun _ => by decide
  drained := by decide
  digest := by decide

/-- They meet the invariant. -/
theorem inv_absorbedAs : Inv (absorbedAs 63).toEngine where
  message := ⟨_, absorbed_absorbedAs⟩
  bound := by decide
  errors := by decide

/-- The state after "abc" and `FINISH` meets the invariant. -/
theorem inv_finishedAbc : Inv finishedAbc.toEngine where
  message := ⟨[0x61, 0x62, 0x63], {
    bits := by decide
    fill := by decide
    folded := by decide
    tail := by decide
    drained := fun _ => rfl
    digest := fun _ => by decide +kernel }⟩
  bound := by decide
  errors := by decide

/-- An `UPDATE 4` over the end of the block. -/
theorem witness_StepExtendsTheAbsorbedMessage :
    Absorbed (List.replicate 63 0x61) (offered (asmUpdate 4) (absorbedAs 63)).toEngine ∧
    (offered (asmUpdate 4) (absorbedAs 63)).pending = .transact (asmUpdate 4) :: [] ∧
    ∃ t, step (offered (asmUpdate 4) (absorbedAs 63)) = .next t := ⟨absorbed_absorbedAs, rfl, _, rfl⟩

theorem witness_StepKeepsTheMessageInvariant :
    (∃ t, Inv (offered (asmUpdate 4) (absorbedAs 63)).toEngine ∧
      step (offered (asmUpdate 4) (absorbedAs 63)) = .next t) ∧
    (∃ t, Inv (offered asmFinish (absorbedAs 63)).toEngine ∧ step (offered asmFinish (absorbedAs 63)) = .next t) ∧
    (∃ t, Inv (offered asmFinish finishedAbc).toEngine ∧ step (offered asmFinish finishedAbc) = .next t) :=
  ⟨⟨_, inv_absorbedAs, rfl⟩, ⟨_, inv_absorbedAs, rfl⟩, ⟨_, inv_finishedAbc, rfl⟩⟩

theorem witness_PhaseIsWrittenOnlyByFinishInitAndReset :
    (∃ t, step (offered asmFinish State.reset) = .next t ∧ State.reset.finished = false ∧ t.finished = true) ∧
    (∃ t, step (offered asmInit finishedAbc) = .next t ∧ finishedAbc.finished = true ∧ t.finished = false) ∧
    (∃ t, step { finishedAbc with pending := [.reset] } = .next t ∧ t.finished = false) :=
  ⟨⟨_, rfl, rfl, rfl⟩, ⟨_, rfl, rfl, rfl⟩, ⟨_, rfl, rfl⟩⟩

/-- A clearing event, a rejection with `err` clear, one with `err` set, and no rejection. -/
theorem witness_ErrorFlagsAreStickyUntilInitOrReset :
    (∃ t, step (offered asmInit { State.reset with err := true, errcode := .illegalCmd }) = .next t) ∧
    (∃ t, step (offered (wr .CMD 0) State.reset) = .next t ∧ t.response = some (.error none)) ∧
    (∃ t, step (offered (rd .CMD) { State.reset with err := true, errcode := .illegalCmd }) = .next t ∧
      t.response = some (.error (some 0))) ∧
    (∃ t, step (offered (rd .STATUS) State.reset) = .next t ∧ ¬∃ d, t.response = some (.error d)) :=
  ⟨⟨_, rfl⟩, ⟨_, rfl, rfl⟩, ⟨_, rfl, rfl⟩, ⟨_, rfl, by rintro ⟨d, h⟩; cases h⟩⟩

theorem witness_RegistersChangeOnlyByTheirWriters :
    (∃ t, step (offered (wr .DATA 1) State.reset) = .next t ∧ t.data ≠ State.reset.data) ∧
    (∃ t, step (offered (asmUpdate 1) State.reset) = .next t ∧ t.bitcnt ≠ State.reset.bitcnt ∧
      t.fill ≠ State.reset.fill) ∧
    (∃ t, step (offered asmInit finishedAbc) = .next t ∧ t.H ≠ finishedAbc.H) :=
  ⟨⟨_, rfl, by decide⟩, ⟨_, rfl, by decide, by decide⟩, ⟨_, rfl, by decide⟩⟩

/-- Two machines that differ in every kind of hidden state, at `fill = 63`. -/
theorem witness_HiddenStateAffectsNoResponse :
    ∃ (s₁ s₂ t₁ t₂ : State), SameButHidden s₁ s₂ ∧ s₁ ≠ s₂ ∧ step s₁ = .next t₁ ∧ step s₂ = .next t₂ := by
  refine ⟨offered asmFinish (absorbedAs 63),
    offered asmFinish { absorbedAs 63 with
      buf := (absorbedAs 63).buf.set 63 0x99, draws := 7, datapath := { Datapath.powerOn with t := 5 } },
    _, _, ⟨rfl, rfl, rfl, rfl, rfl, rfl, rfl, ?_, rfl, rfl⟩, by decide, rfl, rfl⟩
  unfold sameTail
  decide

/-- The first address above the window; and, where the open `ENGINE_BASE` leaves any below it, the last one below. -/
theorem witness_WindowCoversSixtyFourAddresses :
    Config.engineBase + 64 ≤ Config.engineBase + 64 ∧ (0 < Config.engineBase → Config.engineBase - 1 < Config.engineBase) :=
  ⟨Nat.le_refl _, by omega⟩

/-- An accepted and a rejected transaction, at the ends of the range of register offsets. -/
theorem witness_OnlyAlignedWordAccessesOfRegistersAreAccepted :
    (∃ i, decodeTransaction (.read .word 0x24) = .ok i) ∧
    (∀ i, decodeTransaction (.read .word 0x28) ≠ .ok i) ∧ (∀ i, decodeTransaction (.read .word 0x00) ≠ .ok i) := by
  have reserved : decodeTransaction (.read .word 0x28) = .error .illegalAccess := by decide
  have cmd : decodeTransaction (.read .word 0x00) = .error .illegalAccess := by decide
  exact ⟨⟨_, rfl⟩, fun i => by rw [reserved]; simp, fun i => by rw [cmd]; simp⟩

theorem witness_StepRunsTheDecodedInstruction :
    (offered (wr .DATA 5) State.reset).pending = .transact (wr .DATA 5) :: [] ∧
    decodeTransaction (wr .DATA 5) = .ok (.wrData 5) := by decide

theorem witness_EveryTransactionGetsOneResponse :
    State.reset.pending = [] ∧ (offered (rd .STATUS) State.reset).pending = .transact (rd .STATUS) :: [] := by decide

theorem witness_LaterEventsAffectNoEarlierStep :
    (offered asmFinish (absorbedAs 56)).pending ≠ [] ∧
    ∃ t, step (offered asmFinish (absorbedAs 56)) = .next t := ⟨by decide, _, rfl⟩

theorem witness_PlacedTableWordRunsNext :
    decodeTableWord 32 0x00000042 = some (.update 4) ∧ decodeTableWord 16 0x00A4 = some .rdDigest4 := by decide

theorem witness_ExactlySevenCommandWordsAreLegal :
    (0x00000052 : Word) ∉ [(0x00000001 : Word), 0x00000002, 0x00000012, 0x00000022, 0x00000032, 0x00000042, 0x00000003] := by
  decide

/-- The lowest and the highest reserved bit. -/
theorem witness_ReservedCommandBitsAreRejected :
    (0x00000081 : Word).getLsbD 7 = true ∧ (0x80000001 : Word).getLsbD 31 = true := by decide

/-- `UPDATE 0`, `UPDATE 4`, `UPDATE 5`, `INIT` and `FINISH` with `NB = 1`. -/
theorem witness_ByteCountFieldIsChecked :
    [(0x02 : Word), 0x42, 0x52, 0x11, 0x13].all (·.toNat < 128) = true ∧
    ((0x02 : Word).extractLsb' 0 4 = 0x2 ∧ ((0x02 : Word).extractLsb' 4 3).toNat = 0 ∧ State.reset.finished = false) ∧
    ((0x42 : Word).extractLsb' 0 4 = 0x2 ∧ ((0x42 : Word).extractLsb' 4 3).toNat ≤ 4) ∧
    ((0x52 : Word).extractLsb' 0 4 = 0x2 ∧ 5 ≤ ((0x52 : Word).extractLsb' 4 3).toNat) ∧
    ((0x11 : Word).extractLsb' 0 4 = 0x1 ∧ ((0x11 : Word).extractLsb' 4 3).toNat ≠ 0) ∧
    ((0x13 : Word).extractLsb' 0 4 = 0x3 ∧ ((0x13 : Word).extractLsb' 4 3).toNat ≠ 0) := by decide

theorem witness_DecodeAndEncodeAgree :
    (Instr.update 4).wf = true ∧ decode (.cmd 0x00000042) = .ok (.update 4) ∧
    decode (.bus 0x084 0xFFFFFFFF) = .ok .rdData := by decide

theorem witness_ElevenDescriptorsAreAccepted :
    (0x080 : BitVec 9) ∉ [(0x180 : BitVec 9), 0x184, 0x084, 0x088, 0x08C, 0x090, 0x094, 0x098, 0x09C, 0x0A0, 0x0A4] := by
  decide

theorem witness_AssemblerLinesDecodeToTheirInstructions :
    Size.byte ∈ [Size.byte, Size.half] ∧ Size.half ∈ [Size.byte, Size.half] := by decide

theorem witness_CommandWriteRunsItsCommand :
    decodeCmd 0x00000001 = .init ∧ decodeCmd 0x00000002 = .update 0 ∧ decodeCmd 0x00000042 = .update 4 ∧
    decodeCmd 0x00000003 = .finish ∧ decodeCmd 0x00000000 = .illegal := by decide

/-- `UPDATE 4` at a full block less one byte, and at the largest count that admits it. -/
theorem witness_CommandWriteCompletes :
    (absorbedAs 63).finished = false ∧ (absorbedAs 63).bitcnt.toNat + 8 * (4 : BitVec 3).toNat ≤ 2 ^ 64 - 1 ∧
    (0xFFFFFFFFFFFFFFD8 : Count).toNat + 8 * (4 : BitVec 3).toNat ≤ 2 ^ 64 - 1 := by decide

theorem witness_DigestReadsAreGatedByThePhase : finishedAbc.finished = true ∧ State.reset.finished = false := by decide

/-- `stop = 63`, `stop = 64` and `stop = 67`. -/
theorem witness_UpdateAppendsAndCompressesFullBlocks :
    ((absorbedAs 60).finished = false ∧ (absorbedAs 60).fill.val + (3 : BitVec 3).toNat < 64) ∧
    ((absorbedAs 60).bitcnt.toNat + 8 * (4 : BitVec 3).toNat ≤ 2 ^ 64 - 1 ∧
      64 ≤ (absorbedAs 60).fill.val + (4 : BitVec 3).toNat) ∧
    64 ≤ (absorbedAs 63).fill.val + (4 : BitVec 3).toNat := by decide

theorem witness_DataIsAbsorbedMostSignificantByteFirst :
    (absorbedAs 60).finished = false ∧ (absorbedAs 60).bitcnt.toNat + 32 ≤ 2 ^ 64 - 1 ∧
    (absorbedAs 60).fill.val % 4 = 0 ∧ State.reset.fill.val % 4 = 0 := by decide

/-- At the very limit: the sum is `2^64 - 1` (a count no run reaches). -/
theorem witness_UpdateCountsEightBitsAByte :
    State.reset.finished = false ∧ (0xFFFFFFFFFFFFFFDF : Count).toNat + 8 * (4 : BitVec 3).toNat ≤ 2 ^ 64 - 1 := by
  decide

/-- V-UPD-9, which decides log entry 14: near the limit `UPDATE 4` is rejected, and then `UPDATE 3` still accepted. -/
theorem test_shorter_update_after_overflow :
    let full : State := { State.reset with bitcnt := 0xFFFFFFFFFFFFFFE0, fill := 60 }
    let rejected : State := { full with err := true, errcode := .lengthOverflow, response := some (.error none) }
    exec (.update 4) full = .next rejected ∧
    ∃ t, exec (.update 3) rejected = .next t ∧ t.response = some (.okay none) ∧ t.bitcnt = 0xFFFFFFFFFFFFFFF8 ∧
      statusWord t.toEngine = 0x00003F52 := ⟨rfl, _, rfl, rfl, by decide, by decide⟩

/-- The sum is `2^64`; the largest count with `nb = 1` and with `nb = 0`. -/
theorem witness_UpdatePastTheLengthLimitIsRejected :
    State.reset.finished = false ∧ (0xFFFFFFFFFFFFFFE0 : Count).toNat + 8 * (4 : BitVec 3).toNat > 2 ^ 64 - 1 ∧
    1 ≤ (1 : BitVec 3).toNat ∧ (0 : BitVec 3).toNat = 0 ∧ (0xFFFFFFFFFFFFFFF8 : Count).toNat % 8 = 0 ∧
    ∃ t, exec (.update 0) { State.reset with bitcnt := 0xFFFFFFFFFFFFFFF8 } = .next t :=
  ⟨by decide, by decide, by decide, by decide, by decide, _, rfl⟩

theorem witness_UpdateAndFinishAreRejectedInFinished :
    finishedAbc.finished = true ∧ (0 : BitVec 3).toNat ≤ 4 ∧ (4 : BitVec 3).toNat ≤ 4 := by decide

/-- An accepted `UPDATE 4` over the end of the block, whose written positions are 63, 0, 1 and 2: 3 and 62 are not
among them. -/
theorem witness_UpdateFrame :
    (∃ t, exec (.update 4) (absorbedAs 63) = .next t ∧ t.response = some (.okay none)) ∧
    (∀ k : Fin 4, 3 ≠ ((absorbedAs 63).fill.val + k.val) % 64 ∧ 62 ≠ ((absorbedAs 63).fill.val + k.val) % 64) ∧
    State.reset.fill.val + (4 : BitVec 3).toNat < 64 :=
  ⟨⟨_, rfl, rfl⟩, by decide, by decide⟩

/-- Both sides of `fill = 55`. -/
theorem witness_FinishPadsAndCompresses :
    ((absorbedAs 55).finished = false ∧ (absorbedAs 55).fill.val ≤ 55) ∧
    ((absorbedAs 56).finished = false ∧ 56 ≤ (absorbedAs 56).fill.val) := by decide

theorem witness_CommandsCompressAtMostTwice :
    ((absorbedAs 60).fill.val + (3 : BitVec 3).toNat < 64 ∧ 64 ≤ (absorbedAs 60).fill.val + (4 : BitVec 3).toNat) ∧
    (absorbedAs 60).finished = false ∧ 56 ≤ (absorbedAs 60).fill.val ∧ (absorbedAs 55).fill.val ≤ 55 := by decide

theorem witness_FinishFrame :
    (∃ t, exec .finish (absorbedAs 63) = .next t ∧ t.response = some (.okay none)) ∧
    ∃ t, exec .finish finishedAbc = .next t := ⟨⟨_, rfl, rfl⟩, _, rfl⟩

theorem witness_FinishedDigestIsReadOnly :
    finishedAbc.finished = true ∧ asmUpdate 4 ≠ .write .word 0x00 0x00000001 ∧
    (∃ t, step (offered (asmUpdate 4) finishedAbc) = .next t) ∧
    exec .rdDigest4 finishedAbc = .next { finishedAbc with response := some (.okay (some 0x9CD0D89D)) } :=
  ⟨by decide, by decide, ⟨_, rfl⟩, rfl⟩

/-- Five bytes: one group of four and one of one. -/
theorem witness_AbsorbStrAbsorbsTheChunk :
    (absorbedAs 62).finished = false ∧
    (absorbedAs 62).bitcnt.toNat + 8 * [(0x61 : Byte), 0x62, 0x63, 0x64, 0x65].length ≤ 2 ^ 64 - 1 := by decide

/-- Two splits of "abcd", one with an empty group. -/
theorem witness_AbsorbingIsIndependentOfTheSplit :
    (∀ g ∈ [[(0x61 : Byte), 0x62, 0x63, 0x64]], g.length ≤ 4) ∧
    (∀ g ∈ [[(0x61 : Byte)], [], [0x62, 0x63, 0x64]], g.length ≤ 4) ∧
    [[(0x61 : Byte)], [], [0x62, 0x63, 0x64]].flatten = [[(0x61 : Byte), 0x62, 0x63, 0x64]].flatten ∧
    (absorbedAs 62).finished = false ∧
    (absorbedAs 62).bitcnt.toNat + 8 * [[(0x61 : Byte), 0x62, 0x63, 0x64]].flatten.length ≤ 2 ^ 64 - 1 := by decide

/-- "abc" in two groups, and the empty message in none. -/
theorem witness_HashSequenceLeavesTheDigestOfTheMessage :
    (∀ g ∈ [[(0x61 : Byte), 0x62], [0x63]], g.length ≤ 4) ∧
    8 * [[(0x61 : Byte), 0x62], [0x63]].flatten.length ≤ 2 ^ 64 - 8 ∧
    8 * ([] : List (List Byte)).flatten.length ≤ 2 ^ 64 - 8 := by decide

/-- A transaction that is rejected, and one that is not. -/
theorem witness_ExactlyTheListedConditionsReject :
    (offered (rd (.DIGEST 0)) State.reset).pending = .transact (rd (.DIGEST 0)) :: [] ∧
    rejection (rd (.DIGEST 0)) Engine.reset = some .resultBeforeFinish ∧
    rejection (rd (.DIGEST 0)) finishedAbc.toEngine = none := by decide

theorem witness_RejectionsChangeAndBlockNothingElse :
    (∃ t, step (offered (rd (.DIGEST 0)) State.reset) = .next t ∧ t.response = some (.error (some 0))) ∧
    (∃ t, step (offered (asmUpdate 4) finishedAbc) = .next t ∧ t.response = some (.error none)) ∧
    (∃ t, step (offered (asmUpdate 4) (absorbedAs 63)) = .next t) :=
  ⟨⟨_, rfl, rfl⟩, ⟨_, rfl, rfl⟩, _, rfl⟩

/-- The first and the last round of each range. -/
theorem witness_RoundFunctionsAndConstantsFollowTheirRanges :
    (0 < 20 ∧ 19 < 20) ∧ (20 ≤ 20 ∧ 39 < 40) ∧ (40 ≤ 40 ∧ 59 < 60) ∧ 60 ≤ 60 ∧ 79 < 80 ∧ 31 < 32 := by decide

theorem witness_ScheduleFollowsItsRecurrence : 16 ≤ 16 ∧ 16 ≤ 79 ∧ 79 < 80 := by decide

theorem witness_RollingWindowComputesTheSchedule : 15 < 80 ∧ 16 ≤ 16 ∧ 16 ≤ 79 ∧ 79 < 80 := by decide

/-- An `UPDATE` that completes a block and a `FINISH` with two compressions. -/
theorem witness_CyclesCountTheCompressions :
    asmUpdate 4 ≠ .write .word 0x00 0x00000001 ∧ asmFinish ≠ .write .word 0x00 0x00000001 ∧
    (∃ t, step (offered (asmUpdate 4) (absorbedAs 63)) = .next t) ∧
    ∃ t, step (offered asmFinish (absorbedAs 63)) = .next t :=
  ⟨by decide, by decide, ⟨_, rfl⟩, _, rfl⟩

end Sys2Proof.Tests
end

section
/-! PROOFS. State and reset (spec 10_state.md): when a transaction is rejected, the error flags, hidden state, and the
message the engine has absorbed. -/

namespace Sys2Proof.Proofs

open Sys2Proof.Machine Sys2Proof.Laws

/-! ## Command words and transactions -/

/-- A command word that decodes has its reserved bits 0 (R73). -/
theorem toNat_lt_of_decodeCmd {v : Word} (h : decodeCmd v ≠ .illegal) : v.toNat < 128 := by
  by_contra hv
  exact h (decodeCmd_reserved v (by omega))

theorem decodeCmd_eq_init_iff (v : Word) : decodeCmd v = .init ↔ v = 0x00000001 := by
  have small : ∀ k < 128, decodeCmd (BitVec.ofNat 32 k) = .init → BitVec.ofNat 32 k = 0x00000001 := by decide
  constructor
  · intro h
    have hv : v.toNat < 128 := toNat_lt_of_decodeCmd (by simp [h])
    simpa using small v.toNat hv (by simpa using h)
  · rintro rfl
    decide

theorem nb_le_of_decodeCmd {v : Word} {nb : BitVec 3} (h : decodeCmd v = .update nb) : nb.toNat ≤ 4 := by
  unfold decodeCmd at h
  split_ifs at h with _ _ hop _
  injection h with h
  exact (nbLegal_iff nb).1 (h ▸ hop.2)

/-- An access that the list of R54 does not allow is none of the eleven that decode (R77, R150). -/
theorem decodeTransaction_not_allowed {tr : Transaction} (h : accessAllowed tr = false) :
    decodeTransaction tr = .error .illegalAccess := by
  cases tr with
  | read size off =>
    rw [decodeTransaction_read]
    cases size with
    | word => revert off; decide
    | byte | half | reserved => rfl
  | write size off v =>
    rw [decodeTransaction_write]
    cases size with
    | word =>
      simp only [accessAllowed, Bool.or_eq_false_iff, beq_eq_false_iff_ne] at h
      rw [if_neg fun e => h.1 e.2, if_neg fun e => h.2 e.2]
    | byte | half | reserved => simp

/-- The nine reads the engine accepts: four that always complete, and the five digest reads (R77, R148). -/
theorem performTransaction_read_allowed {off : BitVec 6} (h : accessAllowed (.read .word off) = true) (s : State) :
    (digestOffset off = false ∧ ∃ v, performTransaction (.read .word off) s = .next (okayRead v s)) ∨
    (digestOffset off = true ∧ ∃ k, performTransaction (.read .word off) s = .next (readDigest k s)) := by
  have registers : off ∈ [0x04, 0x08, 0x0C, 0x10, 0x14, 0x18, 0x1C, 0x20, (0x24 : BitVec 6)] := by
    revert off; decide
  simp only [List.mem_cons, List.not_mem_nil, or_false] at registers
  obtain rfl | rfl | rfl | rfl | digest := registers
  · exact .inl ⟨by decide, _, rfl⟩
  · exact .inl ⟨by decide, _, rfl⟩
  · exact .inl ⟨by decide, _, rfl⟩
  · exact .inl ⟨by decide, _, rfl⟩
  · obtain rfl | rfl | rfl | rfl | rfl := digest <;> exact .inr ⟨by decide, _, rfl⟩

/-! ## When a transaction is rejected -/

theorem rejection_wrCmd (v : Word) (e : Engine) :
    rejection (.write .word 0x00 v) e = commandRejection (decodeCmd v) e := by
  simp [rejection, accessAllowed]

/-- A write of `CMD` is answered as `commandRejection` says (R141, R201, R203). -/
theorem execWrCmd_reject_or_accept (v : Word) (s : State) :
    (∃ code, commandRejection (decodeCmd v) s.toEngine = some code ∧ execWrCmd v s = .next (reject code false s)) ∨
    (commandRejection (decodeCmd v) s.toEngine = none ∧
      ∃ t, execWrCmd v s = .next t ∧ t.response = some (.okay none)) := by
  unfold execWrCmd
  cases hd : decodeCmd v with
  | illegal => exact .inl ⟨_, rfl, rfl⟩
  | init => exact .inr ⟨rfl, _, rfl, rfl⟩
  | update nb =>
    have hnb := nb_le_of_decodeCmd hd
    by_cases hf : s.finished = true
    · exact .inl ⟨_, by simp [commandRejection, hf], execUpdate_finished nb s hnb hf⟩
    · rw [Bool.not_eq_true] at hf
      by_cases hl : s.bitcnt.toNat + 8 * nb.toNat > 2 ^ 64 - 1
      · exact .inl ⟨_, by simp only [commandRejection, hf, hl]; rfl, execUpdate_overflow nb s hnb hf hl⟩
      · exact .inr ⟨by simp only [commandRejection, hf, hl]; rfl, _,
          execUpdate_accepted nb s hnb hf (by omega), rfl⟩
  | finish =>
    by_cases hf : s.finished = true
    · exact .inl ⟨.alreadyFinished, by simp [commandRejection, hf], by simp [execFinish, hf]⟩
    · exact .inr ⟨by simp [commandRejection, hf], closed s, by simp [execFinish, hf], rfl⟩

/-- Every transaction is answered as `rejection` says: rejected with that code, or completed (R201, R202). -/
theorem performTransaction_answers (tr : Transaction) (s : State) :
    (∃ code, rejection tr s.toEngine = some code ∧ performTransaction tr s = .next (reject code tr.isRead s)) ∨
    (rejection tr s.toEngine = none ∧
      ∃ t d, performTransaction tr s = .next t ∧ t.response = some (.okay d)) := by
  by_cases ha : accessAllowed tr = false
  · exact .inl ⟨.illegalAccess, by simp [rejection, ha], by simp [performTransaction, decodeTransaction_not_allowed ha]⟩
  cases tr with
  | read size off =>
    obtain rfl : size = .word := by cases size <;> simp_all [accessAllowed]
    obtain ⟨hd, v, e⟩ | ⟨hd, k, e⟩ := performTransaction_read_allowed (Bool.eq_true_of_not_eq_false ha) s
    · exact .inr ⟨by simp [rejection, ha, hd], _, _, e, rfl⟩
    · by_cases hf : s.finished = true
      · exact .inr ⟨by simp [rejection, ha, hf], _, some s.H[k], e, by simp [readDigest, hf]⟩
      · exact .inl ⟨.resultBeforeFinish, by simp [rejection, ha, hd, hf],
          by simp [e, readDigest, hf, Transaction.isRead]⟩
  | write size off v =>
    obtain rfl : size = .word := by cases size <;> simp_all [accessAllowed]
    obtain rfl | rfl : off = 0x00 ∨ off = 0x04 := by simpa [accessAllowed, or_iff_not_imp_left] using ha
    · rw [rejection_wrCmd]
      obtain ⟨code, hr, e⟩ | ⟨hr, t, e, ht⟩ := execWrCmd_reject_or_accept v s
      · exact .inl ⟨code, hr, e⟩
      · exact .inr ⟨hr, t, none, e, ht⟩
    · exact .inr ⟨by simp [rejection, accessAllowed], _, _, rfl, rfl⟩

/-- `performTransaction_answers`, from the next state. -/
theorem performTransaction_reject_or_accept {tr : Transaction} {s t : State} (h : performTransaction tr s = .next t) :
    (∃ code, rejection tr s.toEngine = some code ∧ t = reject code tr.isRead s) ∨
    (rejection tr s.toEngine = none ∧ ∃ d, t.response = some (.okay d)) := by
  obtain ⟨code, hr, e⟩ | ⟨hr, t', d, e, ht⟩ := performTransaction_answers tr s
  · injection h.symm.trans e with h
    exact .inl ⟨code, hr, h⟩
  · injection h.symm.trans e with h
    exact .inr ⟨hr, d, h ▸ ht⟩

/-- The first event offered is the one a step takes: a transaction, or a reset. -/
theorem step_event_cases {s t : State} {ev : HostEvent} {rest : List HostEvent} (hp : s.pending = ev :: rest)
    (h : step s = .next t) :
    (∃ tr, ev = .transact tr ∧ performTransaction tr { s with pending := rest } = .next t) ∨
    ((ev = .reset ∨ ∃ tr, ev = .resetDuring tr) ∧ t = resetEngine { s with pending := rest }) := by
  obtain ⟨h0, -⟩ | ⟨tr, rest', hp', h⟩ | ⟨ev', rest', hp', hr, h⟩ := step_cases h
  · simp [h0] at hp
  · injection hp.symm.trans hp' with he hrest
    exact .inl ⟨tr, he, hrest ▸ h⟩
  · injection hp.symm.trans hp' with he hrest
    exact .inr ⟨he ▸ hr, hrest ▸ h⟩

/-! ## The error flags -/

theorem wrCmd_ne_init {v : Word} (h : decodeCmd v ≠ .init) :
    Transaction.write .word 0x00 v ≠ .write .word 0x00 0x00000001 := by
  intro e
  injection e with _ _ hv
  exact h ((decodeCmd_eq_init_iff v).2 hv)

/-- What an accepted transaction does to the error flags: `INIT` clears them, every other one keeps them (R29, R206). -/
theorem accepted_errors {tr : Transaction} {s t : State} {d : Option Word} (h : performTransaction tr s = .next t)
    (ht : t.response = some (.okay d)) :
    (tr = .write .word 0x00 0x00000001 ∧ t.err = false ∧ t.errcode = .none) ∨
    (tr ≠ .write .word 0x00 0x00000001 ∧ t.err = s.err ∧ t.errcode = s.errcode) := by
  obtain ⟨code, rfl⟩ | ⟨v, rfl, hd, rfl⟩ | ⟨v, nb, rfl, hd, -, -, -, rfl⟩ | ⟨v, rfl, hd, -, rfl⟩ | ⟨v, rfl, rfl⟩ |
    ⟨off, v, rfl, rfl⟩ := performTransaction_cases h
  · -- a rejection
    simp at ht
  · -- `INIT`
    rw [decodeCmd_eq_init_iff] at hd
    exact .inl ⟨by rw [hd], rfl, rfl⟩
  · -- `UPDATE`
    exact .inr ⟨wrCmd_ne_init (by simp [hd]), by simp [appendBytes_frame]⟩
  · -- `FINISH`
    exact .inr ⟨wrCmd_ne_init (by simp [hd]), by simp [pad_frame]⟩
  · -- a write of `DATA`
    exact .inr ⟨by simp, rfl, rfl⟩
  · -- a read
    exact .inr ⟨by simp, rfl, rfl⟩

/-- `INIT` is never rejected (R100). -/
theorem rejection_init (e : Engine) : rejection (.write .word 0x00 0x00000001) e = none := by
  rw [rejection_wrCmd, (decodeCmd_eq_init_iff _).2 rfl]
  rfl

/-- Settles O8: a step's event is a reset, or a transaction that is rejected or accepted. -/
theorem errorFlagsAreStickyUntilInitOrReset : Obligations.ErrorFlagsAreStickyUntilInitOrReset := by
  intro s t ev rest hp h clears
  obtain ⟨tr, rfl, h⟩ | ⟨hr, rfl⟩ := step_event_cases hp h
  · have hclears : clears ↔ tr = .write .word 0x00 0x00000001 := by simp [clears]
    rw [hclears]
    obtain ⟨code, hr, rfl⟩ | ⟨-, d, ht⟩ := performTransaction_reject_or_accept h
    · have hne : tr ≠ .write .word 0x00 0x00000001 := by
        rintro rfl
        exact absurd (hr.symm.trans (rejection_init _)) (by simp)
      refine ⟨fun he => absurd he hne, fun _ _ => ⟨by simp, fun he => by simp [he], fun he => ?_⟩,
        fun _ hn => absurd ⟨_, reject_response ..⟩ hn⟩
      exact ⟨tr, code, rfl, hr, by simp [he]⟩
    · have hok : ¬∃ d, t.response = some (.error d) := by simp [ht]
      obtain ⟨he, hclear⟩ | ⟨hne, hkeep⟩ := accepted_errors h ht
      · exact ⟨fun _ => hclear, fun hn => absurd he hn, fun hn => absurd he hn⟩
      · exact ⟨fun he => absurd he hne, fun _ hd => absurd hd hok, fun _ _ => hkeep⟩
  · have hclears : clears := .inr hr
    exact ⟨fun _ => ⟨rfl, rfl⟩, fun hn => absurd hclears hn, fun hn => absurd hclears hn⟩

/-- Settles O3: `INIT` writes the reset value of every field but `data`. -/
theorem initLeavesTheResetStateExceptData : Obligations.InitLeavesTheResetStateExceptData :=
  ⟨fun s => ⟨initialized s, rfl, rfl, rfl, rfl, rfl⟩, rfl, rfl⟩

/-! ## The padding controller folds the padded tail -/

/-- What `Padded` puts behind a message: `n` counts its bytes and may be reduced modulo 64, `len` is its length field
(R115). -/
def paddingOf (n : Nat) (len : Count) : List Byte :=
  [0x80] ++ List.replicate (zeroPadding n) 0x00 ++ beBytes64 len

theorem padded_eq (m : List Byte) : padded m = m ++ paddingOf m.length (BitVec.ofNat 64 (8 * m.length)) := by
  simp [padded, paddingOf]

theorem paddingOf_mod (n : Nat) (len : Count) : paddingOf (n % 64) len = paddingOf n len := by
  simp [paddingOf, zeroPadding]

/-- The valid bytes and one more are those up to `fill` after the write of the byte at `fill` (R24). -/
theorem tailOf_append_byte (x : Byte) (s : State) :
    tailOf s ++ [x] = (s.buf.set s.fill x).toList.take (s.fill.val + 1) := by
  have hlt := s.fill.isLt
  rw [tailOf, Vector.toList_set, List.take_add_one, List.take_set_of_le (Nat.le_refl _),
    List.getElem?_set_self (by simp)]
  rfl

theorem blockOf_getElem (bs : List Byte) (i : Fin 64) : (blockOf bs)[i] = (bs[i.val]?).getD 0 := by
  simp [blockOf]

/-- The tail with its padding, read back: the marked buffer up to `fill`, zeros, the length field. -/
theorem paddedTail_getElem? (s : State) (j : Nat) :
    (tailOf s ++ paddingOf s.fill.val s.bitcnt)[j]? =
      if j ≤ s.fill.val then (s.buf.set s.fill 0x80).toList[j]?
      else if j ≤ s.fill.val + zeroPadding s.fill.val then some 0x00
      else (beBytes64 s.bitcnt)[j - (s.fill.val + 1 + zeroPadding s.fill.val)]? := by
  have hlt := s.fill.isLt
  have hlen : ((s.buf.set s.fill 0x80).toList.take (s.fill.val + 1)).length = s.fill.val + 1 := by
    simp
  rw [paddingOf, ← List.append_assoc, ← List.append_assoc, tailOf_append_byte, List.append_assoc]
  by_cases h1 : j ≤ s.fill.val
  · rw [if_pos h1, List.getElem?_append_left (by omega), List.getElem?_take_of_lt (by omega)]
  · rw [if_neg h1, List.getElem?_append_right (by omega), hlen]
    by_cases h2 : j ≤ s.fill.val + zeroPadding s.fill.val
    · rw [if_pos h2, List.getElem?_append_left (by simp; omega), List.getElem?_replicate_of_lt (by omega)]
    · rw [if_neg h2, List.getElem?_append_right (by simp; omega), List.length_replicate, Nat.sub_sub]

theorem paddedTail_length (s : State) :
    (tailOf s ++ paddingOf s.fill.val s.bitcnt).length = s.fill.val + zeroPadding s.fill.val + 9 := by
  simp [tailOf_length, paddingOf, Nat.add_assoc]

/-- Where the length fits into the block, the padded tail is the block that is compressed (R113, R114). -/
theorem blockOf_paddedTail_one (s : State) (h : s.fill.val ≤ 55) :
    blockOf (tailOf s ++ paddingOf s.fill.val s.bitcnt) =
      lastBlock s.bitcnt (s.fill.val + 1) (s.buf.set s.fill 0x80) := by
  have hz : zeroPadding s.fill.val = 55 - s.fill.val := by unfold zeroPadding; omega
  apply block_ext
  intro i
  rw [blockOf_getElem, lastBlock_get, paddedTail_getElem?, hz]
  by_cases h1 : i.val ≤ s.fill.val
  · rw [if_pos h1, if_pos (by omega), if_neg (by omega)]
    simp
  · rw [if_neg h1]
    by_cases h2 : i.val < 56
    · rw [if_pos (by omega), if_pos h2, if_pos (by omega)]
      rfl
    · rw [if_neg (by omega), if_neg h2, beBytes64_get _ _ (by omega),
        show s.fill.val + 1 + (55 - s.fill.val) = 56 by omega]
      rfl

/-- Where the length needs a second block, the padded tail starts with the zero-filled block (R113, R114). -/
theorem blockOf_paddedTail_first (s : State) (h : 56 ≤ s.fill.val) :
    blockOf (tailOf s ++ paddingOf s.fill.val s.bitcnt) =
      zeroFill (s.fill.val + 1) 63 (s.buf.set s.fill 0x80) := by
  have hz : zeroPadding s.fill.val = 119 - s.fill.val := by unfold zeroPadding; omega
  apply block_ext
  intro i
  rw [blockOf_getElem, zeroFill_get, paddedTail_getElem?, hz]
  by_cases h1 : i.val ≤ s.fill.val
  · rw [if_pos h1, if_neg (by omega)]
    simp
  · rw [if_neg h1, if_pos (by omega), if_pos (by omega)]
    rfl

/-- The second block of the padded tail: zeros and the length (R113, R114). -/
theorem blockOf_paddedTail_second (s : State) (h : 56 ≤ s.fill.val) :
    blockOf ((tailOf s ++ paddingOf s.fill.val s.bitcnt).drop 64) = lastBlock s.bitcnt 0 zeroBlock := by
  have hz : zeroPadding s.fill.val = 119 - s.fill.val := by unfold zeroPadding; omega
  apply block_ext
  intro i
  rw [blockOf_getElem, lastBlock_get, List.getElem?_drop, paddedTail_getElem?, hz, if_neg (by omega)]
  by_cases h2 : i.val < 56
  · rw [if_pos (by omega), if_pos h2, if_pos (by omega)]
    rfl
  · rw [if_neg (by omega), if_neg h2, show 64 + i.val - (s.fill.val + 1 + (119 - s.fill.val)) = i.val - 56 by omega,
      beBytes64_get _ _ (by omega)]
    rfl

/-- The digest registers after `Pad()`: the old tail with its padding folded in, one block or two (R113, R118). -/
theorem pad_digest (s : State) :
    (pad s).H = foldBlocks ((tailOf s ++ paddingOf s.fill.val s.bitcnt).length / 64) s.H
      (tailOf s ++ paddingOf s.fill.val s.bitcnt) := by
  rw [paddedTail_length]
  by_cases h : s.fill.val ≤ 55
  · have hn : (s.fill.val + zeroPadding s.fill.val + 9) / 64 = 1 := by unfold zeroPadding; omega
    rw [hn, foldBlocks, foldBlocks, blockOf_paddedTail_one s h, pad_one_block s h]
    simp only [setFill_toEngine, compressBuffer_toEngine, setBuf_toEngine]
  · have hn : (s.fill.val + zeroPadding s.fill.val + 9) / 64 = 2 := by unfold zeroPadding; omega
    rw [hn, foldBlocks, foldBlocks, foldBlocks, blockOf_paddedTail_first s (by omega),
      blockOf_paddedTail_second s (by omega), pad_two_blocks s (by omega)]
    simp only [setFill_toEngine, compressBuffer_toEngine, setBuf_toEngine]

/-! ## The message absorbed -/

/-- Folding a message and more bytes: the blocks of the message first, then those of its tail with the bytes (R26,
R109). -/
theorem foldBlocks_append (h : Digest) (m xs : List Byte) :
    foldBlocks ((m ++ xs).length / 64) h (m ++ xs) =
      foldBlocks ((m.drop (64 * (m.length / 64)) ++ xs).length / 64) (foldBlocks (m.length / 64) h m)
        (m.drop (64 * (m.length / 64)) ++ xs) := by
  have hlen : (m ++ xs).length / 64 = m.length / 64 + (m.drop (64 * (m.length / 64)) ++ xs).length / 64 := by
    simp only [List.length_append, List.length_drop]
    omega
  rw [hlen, foldBlocks_add, foldBlocks_prefix _ _ _ _ (by omega), List.drop_append_of_le_length (by omega)]

/-- `Absorbed` reads five registers. -/
theorem absorbed_of_eq {m : List Byte} {e e' : Engine} (h : Absorbed m e) (hbuf : e'.buf = e.buf)
    (hfill : e'.fill = e.fill) (hbits : e'.bitcnt = e.bitcnt) (hH : e'.H = e.H) (hf : e'.finished = e.finished) :
    Absorbed m e' := by
  constructor
  · simpa [hbits] using h.bits
  · simpa [hfill, hf] using h.fill
  · simpa [hH, hf] using h.folded
  · simpa [hbuf, hfill, hf] using h.tail
  · simpa [hfill, hf] using h.drained
  · simpa [hH, hf] using h.digest

theorem absorbed_nil {e : Engine} (hbits : e.bitcnt = 0) (hfill : e.fill = 0) (hH : e.H = iv)
    (hf : e.finished = false) : Absorbed [] e := by
  constructor <;> simp [hbits, hfill, hH, hf, foldBlocks]

/-- In `ABSORBING`, the tail of the buffer is the message behind its complete blocks (R24, R26). -/
theorem absorbed_tailOf {m : List Byte} {s : State} (h : Absorbed m s.toEngine) (hf : s.finished = false) :
    tailOf s = m.drop (64 * (m.length / 64)) := by
  refine tailOf_eq ?_ fun i hi => by rw [List.getElem?_drop]; exact h.tail hf i hi
  rw [List.length_drop, h.fill hf]
  omega

/-- The converse of `absorbed_tailOf`: the bit counter, the folded blocks and the tail say that the message has been
absorbed. -/
theorem absorbed_of_tailOf {m : List Byte} {s : State} (hf : s.finished = false)
    (hbits : s.bitcnt.toNat = 8 * m.length) (hH : s.H = foldBlocks (m.length / 64) iv m)
    (htail : tailOf s = m.drop (64 * (m.length / 64))) : Absorbed m s.toEngine where
  bits := hbits
  fill _ := by
    rw [← tailOf_length, htail, List.length_drop]
    omega
  folded _ := hH
  tail _ i hi := by rw [← tailOf_get s i hi, htail, List.getElem?_drop]
  drained h := by simp [hf] at h
  digest h := by simp [hf] at h

@[simp] theorem tailOf_setBitcnt (v : Count) (s : State) : tailOf (setBitcnt v s) = tailOf s := rfl

/-- An accepted `UPDATE` appends its bytes to the message (R104, R106). -/
theorem absorbed_updated {m : List Byte} {s : State} {nb : BitVec 3} (h : Absorbed m s.toEngine)
    (hf : s.finished = false) (hl : s.bitcnt.toNat + 8 * nb.toNat ≤ 2 ^ 64 - 1) :
    Absorbed (m ++ updateBytes s.data nb.toNat) (updated nb s).toEngine := by
  obtain ⟨hH, -, htail⟩ :=
    appendBytes_spec (updateBytes s.data nb.toNat) (setBitcnt (s.bitcnt + BitVec.ofNat 64 (8 * nb.toNat)) s)
  rw [tailOf_setBitcnt, absorbed_tailOf h hf] at hH htail
  refine absorbed_of_tailOf (by simpa [appendBytes_frame] using hf) ?_ ?_ ?_
  · have := h.bits
    simp only [okayWrite_toEngine, appendBytes_frame, setBitcnt_toEngine, BitVec.toNat_add, BitVec.toNat_ofNat,
      List.length_append, updateBytes_length]
    omega
  · rw [foldBlocks_append, ← h.folded hf]
    exact hH
  · refine htail.trans ?_
    rw [← List.drop_append_of_le_length (by omega), List.drop_drop]
    congr 1
    simp only [List.length_append, List.length_drop]
    omega

/-- An accepted `FINISH` leaves the digest of the message (R112, R113, R118). -/
theorem absorbed_closed {m : List Byte} {s : State} (h : Absorbed m s.toEngine) (hf : s.finished = false) :
    Absorbed m (closed s).toEngine := by
  have hcount : s.bitcnt = BitVec.ofNat 64 (8 * m.length) := by rw [← h.bits]; simp
  have hpad : (pad s).H = sha1Digest m := by
    rw [pad_digest, absorbed_tailOf h hf, h.folded hf, h.fill hf, paddingOf_mod, hcount, ← foldBlocks_append,
      ← padded_eq]
    rfl
  constructor
  · simpa [pad_frame] using h.bits
  · simp
  · simp
  · simp
  · simp [pad_frame]
  · simp [hpad]

theorem messageAfter_rejected {tr : Transaction} {e : Engine} {code : ErrCode} (m : List Byte)
    (h : rejection tr e = some code) : messageAfter (.transact tr) e m = m := by
  simp [messageAfter, h]

theorem messageAfter_otherDesc {tr : Transaction} (e : Engine) (m : List Byte) (h : tr.desc ≠ 0x180) :
    messageAfter (.transact tr) e m = m :=
  if_neg fun hc => h hc.2

/-- The message after an accepted command (R26). -/
def messageAfterCmd (c : Cmd) (e : Engine) (m : List Byte) : List Byte :=
  match c with
  | .init => []
  | .update nb => m ++ updateBytes e.data nb.toNat
  | .finish => m
  | .illegal => m

theorem messageAfter_accepted {v : Word} {e : Engine} {c : Cmd} (m : List Byte) (hd : decodeCmd v = c)
    (h : commandRejection c e = none) :
    messageAfter (.transact (.write .word 0x00 v)) e m = messageAfterCmd c e m := by
  subst hd
  exact if_pos ⟨(rejection_wrCmd v e).trans h, rfl⟩

theorem read_desc_ne_wrCmd (size : Size) (off : BitVec 6) : (Transaction.read size off).desc ≠ 0x180 := by
  cases size <;> revert off <;> decide

/-- A transaction that is performed leaves the engine with the message `messageAfter` names (R26). -/
theorem performTransaction_absorbed {tr : Transaction} {s t : State} {m : List Byte} (h : Absorbed m s.toEngine)
    (hs : performTransaction tr s = .next t) :
    Absorbed (messageAfter (.transact tr) s.toEngine m) t.toEngine := by
  obtain ⟨code, hr, rfl⟩ | ⟨-, d, ht⟩ := performTransaction_reject_or_accept hs
  · rw [messageAfter_rejected m hr]
    apply absorbed_of_eq h <;> simp
  obtain ⟨code, rfl⟩ | ⟨v, rfl, hd, rfl⟩ | ⟨v, nb, rfl, hd, -, hf, hl, rfl⟩ | ⟨v, rfl, hd, hf, rfl⟩ | ⟨v, rfl, rfl⟩ |
    ⟨off, v, rfl, rfl⟩ := performTransaction_cases hs
  · -- a rejection
    simp at ht
  · -- `INIT`
    rw [messageAfter_accepted m hd rfl]
    exact absorbed_nil rfl rfl rfl rfl
  · -- `UPDATE`
    rw [messageAfter_accepted m hd (by simp only [commandRejection, hf, Nat.not_lt.2 hl]; rfl)]
    exact absorbed_updated h hf hl
  · -- `FINISH`
    rw [messageAfter_accepted m hd (by simp [commandRejection, hf])]
    exact absorbed_closed h hf
  · -- a write of `DATA`
    rw [messageAfter_otherDesc _ m fun hc => absurd ((write_desc_wrCmd _ _ _).1 hc).2 (by decide)]
    exact absorbed_of_eq h rfl rfl rfl rfl rfl
  · -- a read
    rw [messageAfter_otherDesc _ m (read_desc_ne_wrCmd _ _)]
    exact h

theorem step_absorbed {s t : State} {m : List Byte} {ev : HostEvent} {rest : List HostEvent}
    (h : Absorbed m s.toEngine) (hp : s.pending = ev :: rest) (hs : step s = .next t) :
    Absorbed (messageAfter ev s.toEngine m) t.toEngine := by
  obtain ⟨tr, rfl, hs⟩ | ⟨rfl | ⟨tr, rfl⟩, rfl⟩ := step_event_cases hp hs
  · exact performTransaction_absorbed (s := { s with pending := rest }) h hs
  · exact absorbed_nil rfl rfl rfl rfl
  · exact absorbed_nil rfl rfl rfl rfl

/-- The bit counter of an absorbed message is a multiple of 8 (R26). -/
theorem bitcnt_le_of_absorbed {m : List Byte} {e : Engine} (h : Absorbed m e) : e.bitcnt.toNat ≤ 2 ^ 64 - 8 := by
  have hbits := h.bits
  have hlt := e.bitcnt.isLt
  omega

/-- Settles O5: the step keeps the message, and a count of whole bytes below 2^64 is at most 2^64 - 8. -/
theorem stepExtendsTheAbsorbedMessage : Obligations.StepExtendsTheAbsorbedMessage :=
  fun _ _ _ _ _ h hp hs => ⟨step_absorbed h hp hs, bitcnt_le_of_absorbed (step_absorbed h hp hs)⟩

/-! ## Hidden state -/

section

variable {s₁ s₂ : State}

theorem sameButHidden_tailOf (h : SameButHidden s₁ s₂) : tailOf s₁ = tailOf s₂ := by
  refine tailOf_eq (by rw [tailOf_length, h.fill]) fun i hi => ?_
  rw [h.valid i hi, tailOf_get s₂ i (h.fill ▸ hi)]

/-- Equal tails have the same valid bytes. -/
theorem sameTail_of_tailOf_eq (hfill : s₁.fill = s₂.fill) (h : tailOf s₁ = tailOf s₂) :
    sameTail s₁.toEngine s₂.toEngine := by
  intro i hi
  have := congrArg (·[i.val]?) h
  simpa [tailOf_get s₁ i hi, tailOf_get s₂ i (hfill ▸ hi)] using this

theorem sameTail_of_fill_zero {e₁ e₂ : Engine} (h : e₁.fill = 0) : sameTail e₁ e₂ := by
  intro i hi
  simp [h] at hi

theorem sameButHidden_respond (r : Response) (h : SameButHidden s₁ s₂) :
    SameButHidden (respond r s₁) (respond r s₂) :=
  { h with response := rfl }

theorem sameButHidden_okayRead {v₁ v₂ : Word} (hv : v₁ = v₂) (h : SameButHidden s₁ s₂) :
    SameButHidden (okayRead v₁ s₁) (okayRead v₂ s₂) :=
  hv ▸ sameButHidden_respond _ h

theorem sameButHidden_reject (code : ErrCode) (isRead : Bool) (h : SameButHidden s₁ s₂) :
    SameButHidden (reject code isRead s₁) (reject code isRead s₂) := by
  rw [reject_eq, reject_eq, h.err, h.errcode]
  exact { h with err := rfl, errcode := rfl, response := rfl }

theorem sameButHidden_pending (p : List HostEvent) (h : SameButHidden s₁ s₂) :
    SameButHidden { s₁ with pending := p } { s₂ with pending := p } :=
  { h with pending := rfl }

theorem sameButHidden_resetEngine (h : SameButHidden s₁ s₂) : SameButHidden (resetEngine s₁) (resetEngine s₂) where
  fill := rfl
  bitcnt := rfl
  digest := rfl
  finished := rfl
  err := rfl
  errcode := rfl
  data := rfl
  valid := sameTail_of_fill_zero rfl
  response := rfl
  pending := h.pending

theorem sameButHidden_initialized (h : SameButHidden s₁ s₂) : SameButHidden (initialized s₁) (initialized s₂) where
  fill := rfl
  bitcnt := rfl
  digest := rfl
  finished := rfl
  err := rfl
  errcode := rfl
  data := h.data
  valid := sameTail_of_fill_zero rfl
  response := rfl
  pending := h.pending

/-- Absorbing the same bytes reads the tail, the fill count and the digest registers (R106). -/
theorem sameButHidden_appendBytes (xs : List Byte) (h : SameButHidden s₁ s₂) :
    SameButHidden (appendBytes xs s₁) (appendBytes xs s₂) := by
  obtain ⟨hH₁, -, ht₁⟩ := appendBytes_spec xs s₁
  obtain ⟨hH₂, -, ht₂⟩ := appendBytes_spec xs s₂
  rw [sameButHidden_tailOf h, h.digest] at hH₁
  rw [sameButHidden_tailOf h] at ht₁
  have hfill : (appendBytes xs s₁).fill = (appendBytes xs s₂).fill :=
    Fin.ext (by rw [appendBytes_fill, appendBytes_fill, h.fill])
  exact {
    fill := hfill
    bitcnt := by simp [appendBytes_frame, h.bitcnt]
    digest := hH₁.trans hH₂.symm
    finished := by simp [appendBytes_frame, h.finished]
    err := by simp [appendBytes_frame, h.err]
    errcode := by simp [appendBytes_frame, h.errcode]
    data := by simp [appendBytes_frame, h.data]
    valid := sameTail_of_tailOf_eq hfill (ht₁.trans ht₂.symm)
    response := by simp [appendBytes_frame, h.response]
    pending := by simp [appendBytes_frame, h.pending] }

/-- The padding controller reads the tail, the fill count, the bit counter and the digest registers (R113). -/
theorem sameButHidden_closed (h : SameButHidden s₁ s₂) : SameButHidden (closed s₁) (closed s₂) where
  fill := by simp [pad_frame]
  bitcnt := by simp [pad_frame, h.bitcnt]
  digest := by
    show (pad s₁).H = (pad s₂).H
    rw [pad_digest, pad_digest, sameButHidden_tailOf h, h.fill, h.bitcnt, h.digest]
  finished := rfl
  err := by simp [pad_frame, h.err]
  errcode := by simp [pad_frame, h.errcode]
  data := by simp [pad_frame, h.data]
  valid := sameTail_of_fill_zero (by simp [pad_frame])
  response := rfl
  pending := by simp [pad_frame, h.pending]

theorem sameButHidden_updated (nb : BitVec 3) (h : SameButHidden s₁ s₂) :
    SameButHidden (updated nb s₁) (updated nb s₂) := by
  unfold updated
  rw [h.data, h.bitcnt]
  exact sameButHidden_respond _ (sameButHidden_appendBytes _ { h with bitcnt := rfl })

/-- Two outcomes are next states that differ at most in hidden state (R39). -/
def NextAlike (o₁ o₂ : Host.Outcome State Fault Refusal) : Prop :=
  ∃ t₁ t₂, o₁ = .next t₁ ∧ o₂ = .next t₂ ∧ SameButHidden t₁ t₂

theorem nextAlike_next {t₁ t₂ : State} (h : SameButHidden t₁ t₂) : NextAlike (.next t₁) (.next t₂) :=
  ⟨t₁, t₂, rfl, rfl, h⟩

theorem execUpdate_alike (nb : BitVec 3) (h : SameButHidden s₁ s₂) :
    NextAlike (execUpdate nb s₁) (execUpdate nb s₂) := by
  unfold execUpdate
  rw [h.finished, show lengthOverflows s₁.bitcnt nb.toNat = lengthOverflows s₂.bitcnt nb.toNat by rw [h.bitcnt]]
  split_ifs
  · exact nextAlike_next (sameButHidden_reject _ _ h)
  · exact nextAlike_next (sameButHidden_reject _ _ h)
  · exact nextAlike_next (sameButHidden_reject _ _ h)
  · exact nextAlike_next (sameButHidden_updated nb h)

theorem execFinish_alike (h : SameButHidden s₁ s₂) : NextAlike (execFinish s₁) (execFinish s₂) := by
  unfold execFinish
  rw [h.finished]
  split_ifs
  · exact nextAlike_next (sameButHidden_reject _ _ h)
  · exact nextAlike_next (sameButHidden_closed h)

theorem execWrCmd_alike (v : Word) (h : SameButHidden s₁ s₂) : NextAlike (execWrCmd v s₁) (execWrCmd v s₂) := by
  unfold execWrCmd
  cases decodeCmd v with
  | init => exact nextAlike_next (sameButHidden_initialized h)
  | update nb => exact execUpdate_alike nb h
  | finish => exact execFinish_alike h
  | illegal => exact nextAlike_next (sameButHidden_reject _ _ h)

theorem sameButHidden_readDigest (k : Fin 5) (h : SameButHidden s₁ s₂) :
    SameButHidden (readDigest k s₁) (readDigest k s₂) := by
  unfold readDigest
  rw [h.finished]
  split_ifs
  · exact sameButHidden_okayRead (by rw [h.digest]) h
  · exact sameButHidden_reject _ _ h

theorem sameButHidden_statusWord (h : SameButHidden s₁ s₂) : statusWord s₁.toEngine = statusWord s₂.toEngine := by
  unfold statusWord
  rw [h.fill, h.errcode, h.err, h.finished]

/-- No instruction reads hidden state (R39). -/
theorem exec_alike (i : Instr) (h : SameButHidden s₁ s₂) : NextAlike (exec i s₁) (exec i s₂) := by
  cases i with
  | init => exact nextAlike_next (sameButHidden_initialized h)
  | update nb => exact execUpdate_alike nb h
  | finish => exact execFinish_alike h
  | wrCmd v => exact execWrCmd_alike v h
  | wrData v => exact nextAlike_next (sameButHidden_respond _ { h with data := rfl })
  | rdData => exact nextAlike_next (sameButHidden_okayRead h.data h)
  | rdStatus => exact nextAlike_next (sameButHidden_okayRead (sameButHidden_statusWord h) h)
  | rdBitcntLo => exact nextAlike_next (sameButHidden_okayRead (by rw [h.bitcnt]) h)
  | rdBitcntHi => exact nextAlike_next (sameButHidden_okayRead (by rw [h.bitcnt]) h)
  | rdDigest0 | rdDigest1 | rdDigest2 | rdDigest3 | rdDigest4 => exact nextAlike_next (sameButHidden_readDigest _ h)

theorem performTransaction_alike (tr : Transaction) (h : SameButHidden s₁ s₂) :
    NextAlike (performTransaction tr s₁) (performTransaction tr s₂) := by
  unfold performTransaction
  cases decodeTransaction tr with
  | ok i => exact exec_alike i h
  | error code => exact nextAlike_next (sameButHidden_reject _ _ h)

theorem step_alike (h : SameButHidden s₁ s₂) : NextAlike (step s₁) (step s₂) := by
  unfold step acceptAndPerform
  rw [h.pending]
  cases s₂.pending with
  | nil => exact nextAlike_next h
  | cons ev rest =>
    have hrest := sameButHidden_pending rest h
    cases ev with
    | transact tr => exact performTransaction_alike tr hrest
    | reset | resetDuring => exact nextAlike_next (sameButHidden_resetEngine hrest)

end

/-- Settles O10: each shared operation takes states that differ only in hidden state to such states. -/
theorem hiddenStateAffectsNoResponse : Obligations.HiddenStateAffectsNoResponse := by
  intro s₁ s₂ t₁ t₂ h h₁ h₂
  obtain ⟨u₁, u₂, e₁, e₂, hu⟩ := step_alike h
  injection h₁.symm.trans e₁ with e₁
  injection h₂.symm.trans e₂ with e₂
  exact e₁ ▸ e₂ ▸ hu

end Sys2Proof.Proofs
end

section
/-! PROOFS. The memory and the register window (spec 20_memory.md): which accesses decode, and what a step on any other
one does. -/

namespace Sys2Proof.Proofs

open Sys2Proof.Machine Sys2Proof.Laws

/-- The accesses the registers allow, as R54 lists them. -/
theorem accessAllowed_iff (tr : Transaction) :
    accessAllowed tr = true ↔
      (∃ v, tr = .write .word 0x00 v ∨ tr = .write .word 0x04 v) ∨
      (∃ off, tr = .read .word off ∧ off.toNat % 4 = 0 ∧ off.toNat ≤ 0x24 ∧ off ≠ 0x00) := by
  cases tr with
  | read size off =>
    cases size with
    | word =>
      -- among the multiples of 4, those from 4 up are those other than 0
      have aligned : off.toNat % 4 = 0 → (4 ≤ off.toNat ↔ off ≠ 0x00) := by revert off; decide
      simp only [accessAllowed, Bool.and_eq_true, beq_iff_eq, decide_eq_true_eq]
      constructor
      · rintro ⟨⟨halign, hlow⟩, hhigh⟩
        exact .inr ⟨off, rfl, halign, hhigh, (aligned halign).1 hlow⟩
      · rintro (⟨v, hwrite⟩ | ⟨off', heq, halign, hhigh, hne⟩)
        · simp at hwrite
        · cases heq
          exact ⟨⟨halign, (aligned halign).2 hne⟩, hhigh⟩
    | byte | half | reserved => simp [accessAllowed]
  | write size off v =>
    cases size with
    | word => simp [accessAllowed, exists_or]
    | byte | half | reserved => simp [accessAllowed]

/-- An access that the registers allow is one of the eleven that decode (R77). -/
theorem decodeTransaction_allowed {tr : Transaction} (h : accessAllowed tr = true) :
    ∃ i, decodeTransaction tr = .ok i := by
  obtain ⟨v, rfl | rfl⟩ | ⟨off, rfl, halign, hhigh, hne⟩ := (accessAllowed_iff tr).1 h
  · exact ⟨.wrCmd v, rfl⟩
  · exact ⟨.wrData v, rfl⟩
  · have hok : (decodeTransaction (.read .word off)).isOk = true := by
      revert off
      decide
    cases hd : decodeTransaction (.read .word off) with
    | ok i => exact ⟨i, rfl⟩
    | error code => simp [hd, Except.isOk, Except.toBool] at hok

/-- A transaction decodes exactly if the register there allows it (R54, R77). -/
theorem decodeTransaction_ok_iff (tr : Transaction) :
    (∃ i, decodeTransaction tr = .ok i) ↔ accessAllowed tr = true := by
  refine ⟨fun ⟨i, hi⟩ => ?_, decodeTransaction_allowed⟩
  by_contra hna
  rw [decodeTransaction_not_allowed (Bool.eq_false_of_not_eq_true hna)] at hi
  simp at hi

/-- A step performs the transaction it takes (R57). -/
theorem step_transact {s : State} {tr : Transaction} {rest : List HostEvent} (hp : s.pending = .transact tr :: rest) :
    step s = performTransaction tr { s with pending := rest } := by
  simp only [step, acceptAndPerform, hp, performEvent]

/-- Settles O12: the transactions that decode are those `accessAllowed` lists, and every other one is rejected with
`ILLEGAL_ACCESS`. -/
theorem onlyAlignedWordAccessesOfRegistersAreAccepted :
    Obligations.OnlyAlignedWordAccessesOfRegistersAreAccepted := by
  intro s tr rest hp
  refine ⟨(decodeTransaction_ok_iff tr).trans (accessAllowed_iff tr), fun hno => ?_⟩
  have hna : accessAllowed tr = false :=
    Bool.eq_false_of_not_eq_true fun ha => not_exists.2 hno (decodeTransaction_allowed ha)
  rw [step_transact hp, performTransaction, decodeTransaction_not_allowed hna]
  exact congrArg Host.Outcome.next (reject_eq .illegalAccess tr.isRead { s with pending := rest })

end Sys2Proof.Proofs
end

section
/-! PROOFS. The encodings (spec 30_encoding.md): the command words and their fields, the eleven descriptors, and the
assembler's lines. -/

namespace Sys2Proof.Proofs

open Sys2Proof.Machine Sys2Proof.Laws

/-! ## Command words from their fields -/

@[simp] theorem cmdOp_cmdWord (nb : BitVec 3) (op : BitVec 4) : cmdOp (cmdWord nb op) = op :=
  BitVec.extractLsb'_append_eq_right

@[simp] theorem cmdNb_cmdWord (nb : BitVec 3) (op : BitVec 4) : cmdNb (cmdWord nb op) = nb :=
  (BitVec.extractLsb'_append_eq_of_le (by decide)).trans BitVec.extractLsb'_append_eq_right

@[simp] theorem cmdReserved_cmdWord (nb : BitVec 3) (op : BitVec 4) : cmdReserved (cmdWord nb op) = 0 :=
  (BitVec.extractLsb'_append_eq_of_le (by decide)).trans BitVec.extractLsb'_append_eq_left

/-- A word whose reserved bits are 0 is the word of its two other fields (R70). -/
theorem cmdWord_fields {c : Word} (h : c.toNat < 128) : cmdWord (cmdNb c) (cmdOp c) = c := by
  have small : ∀ k < 128, cmdWord (cmdNb (BitVec.ofNat 32 k)) (cmdOp (BitVec.ofNat 32 k)) = BitVec.ofNat 32 k := by
    decide
  simpa using small c.toNat h

/-- `DecodeCmd` on the fields (R74). -/
theorem decodeCmd_cmdWord (nb : BitVec 3) (op : BitVec 4) :
    decodeCmd (cmdWord nb op) =
      if op = 0x1 ∧ nb = 0 then .init
      else if op = 0x2 ∧ nb.toNat ≤ 4 then .update nb
      else if op = 0x3 ∧ nb = 0 then .finish
      else .illegal := by
  simp [decodeCmd, nbLegal_iff]

/-- `DecodeCmd` of a word whose reserved bits are 0 (R74). -/
theorem decodeCmd_fields {c : Word} (h : c.toNat < 128) :
    decodeCmd c =
      if cmdOp c = 0x1 ∧ cmdNb c = 0 then .init
      else if cmdOp c = 0x2 ∧ (cmdNb c).toNat ≤ 4 then .update (cmdNb c)
      else if cmdOp c = 0x3 ∧ cmdNb c = 0 then .finish
      else .illegal := by
  rw [← decodeCmd_cmdWord, cmdWord_fields h]

/-- The seven words of R74. -/
def legalCommandWords : List Word :=
  [0x00000001, 0x00000002, 0x00000012, 0x00000022, 0x00000032, 0x00000042, 0x00000003]

/-- The five legal values of `NB` give the five words of `UPDATE` (R72, R74). -/
theorem updateWord_mem : ∀ nb : BitVec 3, nb.toNat ≤ 4 → cmdWord nb 0x2 ∈ legalCommandWords := by decide

/-- A word that decodes to a command is one of the seven (R74). -/
theorem mem_legalCommandWords_of_decodeCmd {c : Word} (h : decodeCmd c ≠ .illegal) : c ∈ legalCommandWords := by
  have hsmall := toNat_lt_of_decodeCmd h
  rw [decodeCmd_fields hsmall] at h
  rw [← cmdWord_fields hsmall]
  split_ifs at h with hinit hupdate hfinish
  · rw [hinit.1, hinit.2]
    decide
  · rw [hupdate.1]
    exact updateWord_mem _ hupdate.2
  · rw [hfinish.1, hfinish.2]
    decide
  · exact absurd rfl h

/-- The write of an illegal word to `CMD` changes only the error record (R73, R141, R202). -/
theorem exec_wrCmd_illegal {c : Word} (h : decodeCmd c = .illegal) (s : State) :
    exec (.wrCmd c) s = .next { s with
      err := true, errcode := if s.err then s.errcode else .illegalCmd, response := some (.error none) } := by
  have hreject : exec (.wrCmd c) s = .next (reject .illegalCmd false s) := by
    simp only [exec, execWrCmd, h]
  rw [hreject, reject_eq]
  rfl

/-- Settles O17: `DecodeCmd` on the seven words, and every other word is illegal. -/
theorem exactlySevenCommandWordsAreLegal : Obligations.ExactlySevenCommandWordsAreLegal := by
  refine ⟨by decide, by decide, by decide, by decide, by decide, by decide, by decide, fun c hc => ?_⟩
  have hillegal : decodeCmd c = .illegal := by
    by_contra h
    exact hc (mem_legalCommandWords_of_decodeCmd h)
  exact ⟨hillegal, exec_wrCmd_illegal hillegal⟩

/-- Settles O18: a word with a bit from 7 up set is at least 128, so it is illegal. -/
theorem reservedCommandBitsAreRejected : Obligations.ReservedCommandBitsAreRejected := by
  intro s c k hk _ hbit
  have hlarge : 2 ^ 7 ≤ c.toNat :=
    (Nat.pow_le_pow_right (by decide) hk).trans (Nat.ge_two_pow_of_testBit hbit)
  exact exec_wrCmd_illegal (decodeCmd_reserved c hlarge) s

/-- `UPDATE 0` in `ABSORBING` absorbs nothing (R72, R104). -/
theorem execUpdate_zero {s : State} (hf : s.finished = false) :
    execUpdate 0 s = .next { s with response := some (.okay none) } := by
  rw [execUpdate_accepted 0 s (by decide) hf (Nat.le_sub_one_of_lt s.bitcnt.isLt)]
  simp [updated, updateBytes, appendBytes, setBitcnt, okayWrite, respond]

/-- With the reserved bits 0, `OP = 2` and a legal `NB` are `UPDATE NB` (R72). -/
theorem decodeCmd_update {c : Word} (hc : c.toNat < 128) (hop : cmdOp c = 0x2) (hnb : (cmdNb c).toNat ≤ 4) :
    decodeCmd c = .update (cmdNb c) := by
  simp [decodeCmd_fields hc, hop, hnb]

/-- With the reserved bits 0, an `NB` that the `OP` does not allow is illegal (R72). -/
theorem decodeCmd_illegal_nb {c : Word} (hc : c.toNat < 128)
    (hbad : cmdOp c = 0x2 ∧ 5 ≤ (cmdNb c).toNat ∨ (cmdOp c = 0x1 ∨ cmdOp c = 0x3) ∧ (cmdNb c).toNat ≠ 0) :
    decodeCmd c = .illegal := by
  obtain ⟨hop, hnb⟩ | ⟨hop, hnb⟩ := hbad
  · simp [decodeCmd_fields hc, hop, Nat.not_le.2 hnb]
  · have hne : cmdNb c ≠ 0#3 := fun h0 => hnb (congrArg BitVec.toNat h0)
    obtain hop | hop := hop
    · simp [decodeCmd_fields hc, hop, hne]
    · simp [decodeCmd_fields hc, hop, hne]

/-- Settles O19: the two fields decide what the word decodes to, and `UPDATE 0` absorbs nothing. -/
theorem byteCountFieldIsChecked : Obligations.ByteCountFieldIsChecked := by
  intro s c hc
  refine ⟨decodeCmd_update hc, fun hbad => exec_wrCmd_illegal (decodeCmd_illegal_nb hc hbad) s,
    fun hop hzero hf => ?_⟩
  have hdecode : decodeCmd c = .update 0 :=
    (decodeCmd_update hc hop (by rw [cmdNb, hzero]; decide)).trans (congrArg Cmd.update (BitVec.eq_of_toNat_eq hzero))
  have hrun : exec (.wrCmd c) s = execUpdate 0 s := by
    simp only [exec, execWrCmd, hdecode]
  rw [hrun, execUpdate_zero hf]

/-! ## Descriptors -/

/-- The descriptor as a number: `Wr` is worth 256, `SZ` 64 and `OFF` 1 (R76). -/
theorem desc_toNat_append (wr : BitVec 1) (sz : BitVec 2) (off : BitVec 6) :
    ((wr ++ sz) ++ off).toNat = 256 * wr.toNat + 64 * sz.toNat + off.toNat := by
  rw [BitVec.toNat_append, BitVec.toNat_append, ← Nat.shiftLeft_add_eq_or_of_lt sz.isLt,
    ← Nat.shiftLeft_add_eq_or_of_lt off.isLt, Nat.shiftLeft_eq, Nat.shiftLeft_eq]
  omega

/-- The eleven descriptors of R77. -/
def acceptedDescriptors : List (BitVec 9) :=
  [0x180, 0x184, 0x084, 0x088, 0x08C, 0x090, 0x094, 0x098, 0x09C, 0x0A0, 0x0A4]

/-- A descriptor outside R77's list decodes to the rejection (R150). -/
theorem decodeDesc_not_accepted {d : BitVec 9} (h : d ∉ acceptedDescriptors) (v : Word) :
    decodeDesc d v = .error .illegalAccess := by
  simp only [acceptedDescriptors, List.mem_cons, List.not_mem_nil, or_false, not_or] at h
  simp only [decodeDesc, h, if_false]

/-- Settles O21: the fields of the descriptor as a number, the rows of R77, and the descriptors outside them. -/
theorem elevenDescriptorsAreAccepted : Obligations.ElevenDescriptorsAreAccepted := by
  refine ⟨⟨rfl, rfl, rfl, rfl⟩, fun size off v => ⟨?_, ?_⟩, fun v => ?_, fun d v hd => decodeDesc_not_accepted hd v⟩
  · exact (desc_toNat_append 0 size.code off).trans (by simp)
  · exact (desc_toNat_append 1 size.code off).trans (by simp)
  · exact ⟨rfl, rfl, rfl, rfl, rfl, rfl, rfl, rfl, rfl, rfl, rfl⟩

/-! ## Assembler lines -/

/-- `UPDATE n` writes the command word with `NB = n` and `OP = 2`, for `n` from 0 to 7 (R70, R80). -/
theorem asmUpdate_eq : ∀ n : Fin 8, asmUpdate n.val = wr .CMD (cmdWord (BitVec.ofNat 3 n.val) 0x2) := by decide

/-- A numeric line of 1 or 2 bytes is rejected, whatever its offset (R80, R150). -/
theorem decodeTransaction_narrow {size : Size} (h : size ≠ .word) (off : BitVec 6) (v : Word) :
    decodeTransaction (wrAt size off v) = .error .illegalAccess ∧
    decodeTransaction (rdAt size off) = .error .illegalAccess := by
  simp [wrAt, rdAt, decodeTransaction_write, decodeTransaction_read, h]

/-- `UPDATE n` decodes to its command for `n` up to 4 and is illegal from 5 to 7 (R72, R80). -/
theorem decodeCmd_updateWord (n : Fin 8) :
    decodeCmd (cmdWord (BitVec.ofNat 3 n.val) 0x2) =
      if n.val ≤ 4 then .update (BitVec.ofNat 3 n.val) else .illegal := by
  simp [decodeCmd_cmdWord]

/-- Settles O23: the register lines, the numeric lines, and the command lines. -/
theorem assemblerLinesDecodeToTheirInstructions : Obligations.AssemblerLinesDecodeToTheirInstructions := by
  refine ⟨fun _ _ => ⟨rfl, rfl⟩, fun _ _ _ => ⟨rfl, rfl⟩, fun _ => ⟨rfl, rfl⟩, rfl, rfl, rfl, rfl, rfl, ?_,
    rfl, by decide, rfl, by decide, ?_⟩
  · intro size hsize off v
    exact decodeTransaction_narrow (by rintro rfl; simp at hsize) off v
  · intro n word
    have hline : asmUpdate n.val = wr .CMD word := rfl
    have hword : word = cmdWord (BitVec.ofNat 3 n.val) 0x2 := by
      injection hline.symm.trans (asmUpdate_eq n)
    refine ⟨hline, rfl, ?_⟩
    rw [hword]
    exact decodeCmd_updateWord n

end Sys2Proof.Proofs
end

section
/-! PROOFS. The commands (spec 40_commands.md): what an accepted `UPDATE` and an accepted `FINISH` leave in each
register. -/

namespace Sys2Proof.Proofs

open Sys2Proof.Machine Sys2Proof.Laws

/-! ## The registers after an accepted `UPDATE` -/

/-- The bit counter after bytes within the length limit, as a number (R107, R108). -/
theorem bitcnt_add_toNat {n : Count} {k : Nat} (h : n.toNat + 8 * k ≤ 2 ^ 64 - 1) :
    (n + BitVec.ofNat 64 (8 * k)).toNat = n.toNat + 8 * k := by
  rw [BitVec.toNat_add, BitVec.toNat_ofNat]
  omega

theorem updated_bitcnt (nb : BitVec 3) (s : State) :
    (updated nb s).bitcnt = s.bitcnt + BitVec.ofNat 64 (8 * nb.toNat) := by
  simp [appendBytes_frame]

/-- A block is the one whose bytes are given where it agrees with each of them. -/
theorem block_eq_ofFn {b : Block} {f : Fin 64 → Byte} (h : ∀ i, b[i] = f i) : b = Vector.ofFn f :=
  block_ext fun i => (h i).trans (Vector.getElem_ofFn i.isLt).symm

/-- The whole buffer after absorbing at most a block of bytes: position `i` is number `(i - fill) mod 64` of those that
are written (R106). -/
theorem appendBytes_buf_get (xs : List Byte) (s : State) (hlen : xs.length ≤ 64) (i : Fin 64) :
    (appendBytes xs s).buf[i] = (xs[(i.val + 64 - s.fill.val) % 64]?).getD s.buf[i] := by
  induction xs generalizing s with
  | nil => rfl
  | cons x xs ih =>
    rw [List.length_cons] at hlen
    have hfill := s.fill.isLt
    rw [appendBytes, ih _ (by omega), appendByte_fill, appendByte_buf]
    simp only [Fin.getElem_fin, Vector.getElem_set]
    by_cases hi : s.fill.val = i.val
    · -- the position of `x`: the bytes behind it do not come round to it
      rw [List.getElem?_eq_none (by omega), if_pos hi, show (i.val + 64 - s.fill.val) % 64 = 0 by omega]
      rfl
    · rw [if_neg hi, show (i.val + 64 - s.fill.val) % 64 = (i.val + 64 - (s.fill.val + 1) % 64) % 64 + 1 by omega,
        List.getElem?_cons_succ]

/-- The whole buffer after an accepted `UPDATE` (R105, R106). -/
theorem updated_buf_get {nb : BitVec 3} (s : State) (i : Fin 64) :
    (updated nb s).buf[i] =
      if (i.val + 64 - s.fill.val) % 64 < nb.toNat then dataByte s.data ((i.val + 64 - s.fill.val) % 64)
      else s.buf[i] := by
  have hlen : (updateBytes s.data nb.toNat).length ≤ 64 := by
    rw [updateBytes_length]
    omega
  refine (appendBytes_buf_get _ (setBitcnt _ s) hlen i).trans ?_
  rw [updateBytes_get, setBitcnt_toEngine]
  split_ifs <;> rfl

/-- The bytes that fill the block: it is compressed as soon as it is full (R106). -/
theorem appendBytes_full {xs : List Byte} {s : State} (hfull : 64 ≤ s.fill.val + xs.length)
    (hlen : xs.length ≤ 64) : (appendBytes xs s).H = compress s.H (blockOf (tailOf s ++ xs)) := by
  have hfill := s.fill.isLt
  have hone : (tailOf s ++ xs).length / 64 = 1 := by
    rw [List.length_append, tailOf_length]
    omega
  rw [(appendBytes_spec xs s).1, hone]
  rfl

/-- The block of the tail and the new bytes, byte by byte. -/
theorem blockOf_tailOf_append (s : State) (xs : List Byte) (i : Fin 64) :
    (blockOf (tailOf s ++ xs))[i] =
      if s.fill.val ≤ i.val then (xs[i.val - s.fill.val]?).getD 0 else s.buf[i] := by
  rw [blockOf_getElem]
  split
  · rw [List.getElem?_append_right (by rw [tailOf_length]; omega), tailOf_length]
  · rw [List.getElem?_append_left (by rw [tailOf_length]; omega), tailOf_get s i (by omega)]
    rfl

/-- Settles O34: the sum stays below 2^64, so that the 64-bit addition is exact. -/
theorem updateCountsEightBitsAByte : Obligations.UpdateCountsEightBitsAByte := by
  intro s nb hnb hf hl
  refine ⟨updated nb s, execUpdate_accepted nb s hnb hf hl, ?_⟩
  rw [updated_bitcnt, bitcnt_add_toNat hl]

/-- An `UPDATE` past the length limit changes only the error record (R108, R202). -/
theorem exec_update_overflow {s : State} {nb : BitVec 3} (hnb : nb.toNat ≤ 4) (hf : s.finished = false)
    (hl : s.bitcnt.toNat + 8 * nb.toNat > 2 ^ 64 - 1) :
    exec (.update nb) s = .next { s with
      err := true, errcode := if s.err then s.errcode else .lengthOverflow, response := some (.error none) } := by
  have hreject : exec (.update nb) s = .next (reject .lengthOverflow false s) := execUpdate_overflow nb s hnb hf hl
  rw [hreject, reject_eq]
  rfl

/-- Settles O35: at 2^64 - 8 bits only `UPDATE 0` is within the limit, and a multiple of 8 below 2^64 is at most
2^64 - 8. -/
theorem updatePastTheLengthLimitIsRejected : Obligations.UpdatePastTheLengthLimitIsRejected := by
  intro s nb hnb hf
  refine ⟨exec_update_overflow hnb hf, fun hmax hpos => ?_, fun _ hzero => ?_, fun hmod t ht => ?_⟩
  · refine exec_update_overflow hnb hf ?_
    have hcount : s.bitcnt.toNat = 2 ^ 64 - 8 := by rw [hmax]; rfl
    omega
  · obtain rfl : nb = 0 := BitVec.eq_of_toNat_eq hzero
    exact execUpdate_zero hf
  · have hlt := s.bitcnt.isLt
    obtain ⟨code, rfl⟩ | ⟨-, -, hl, rfl⟩ := execUpdate_cases ht
    · simp only [reject_toEngine, recordError_bitcnt]
      omega
    · rw [updated_bitcnt, bitcnt_add_toNat hl]
      omega

/-- An `UPDATE` that leaves room in the block compresses nothing (R106). -/
theorem updated_H_room {nb : BitVec 3} {s : State} (hroom : s.fill.val + nb.toNat < 64) : (updated nb s).H = s.H := by
  have hlen := updateBytes_length s.data nb.toNat
  obtain ⟨-, hH, -⟩ := appendBytes_room (updateBytes s.data nb.toNat)
    (setBitcnt (s.bitcnt + BitVec.ofNat 64 (8 * nb.toNat)) s) (by rw [hlen]; exact hroom)
  exact hH

/-- An `UPDATE` that fills the block compresses it (R106). -/
theorem updated_H_full {nb : BitVec 3} {s : State} (hnb : nb.toNat ≤ 4) (hfull : 64 ≤ s.fill.val + nb.toNat) :
    (updated nb s).H = compress s.H (blockOf (tailOf s ++ updateBytes s.data nb.toNat)) := by
  have hlen := updateBytes_length s.data nb.toNat
  exact appendBytes_full (s := setBitcnt _ s) (by rw [hlen]; exact hfull) (by omega)

/-- Settles O32: the buffer is that of `updated_buf_get`, and `H` that of `updated_H_room` or `updated_H_full`. -/
theorem updateAppendsAndCompressesFullBlocks : Obligations.UpdateAppendsAndCompressesFullBlocks := by
  intro s nb hnb hf hl stop block
  have hlt := s.fill.isLt
  have hstop : stop = s.fill.val + nb.toNat := rfl
  have hfill : (updated nb s).fill.val = stop % 64 :=
    (appendBytes_fill _ _).trans (by rw [updateBytes_length]; rfl)
  have hblock : ∀ i : Fin 64, block[i] =
      if s.fill.val ≤ i.val ∧ i.val < stop then dataByte s.data (i.val - s.fill.val) else s.buf[i] :=
    fun i => Vector.getElem_ofFn i.isLt
  refine ⟨updated nb s, execUpdate_accepted nb s hnb hf hl, rfl, fun hroom => ⟨?_, ?_, block_ext fun i => ?_⟩,
    fun hfull => ⟨?_, ?_, fun i => ?_⟩⟩
  · rw [hfill, Nat.mod_eq_of_lt hroom]
  · exact updated_H_room hroom
  · rw [updated_buf_get, hblock]
    by_cases hi : s.fill.val ≤ i.val
    · rw [show (i.val + 64 - s.fill.val) % 64 = i.val - s.fill.val by omega]
      exact if_congr (by omega) rfl rfl
    · rw [if_neg (by omega), if_neg (by omega)]
  · omega
  · rw [updated_H_full hnb hfull]
    refine congrArg (compress s.H) (block_ext fun i => ?_)
    rw [blockOf_tailOf_append, hblock, updateBytes_get, if_pos (show i.val - s.fill.val < nb.toNat by omega)]
    exact if_congr (by omega) rfl rfl
  · rw [updated_buf_get, hblock]
    by_cases hi : i.val < s.fill.val
    · -- the bytes left over come round to the start of the buffer
      rw [show (i.val + 64 - s.fill.val) % 64 = 64 - s.fill.val + i.val by omega, if_neg (c := _ ∧ _) (by omega)]
      exact if_congr (by omega) rfl rfl
    · rw [show (i.val + 64 - s.fill.val) % 64 = i.val - s.fill.val by omega, if_pos (by omega),
        if_neg (by omega), if_pos (by omega)]

/-! ## Byte order -/

/-- Byte `k` of a word, as a number (R105). -/
theorem dataByte_toNat (v : Word) (k : Nat) : (dataByte v k).toNat = v.toNat / 2 ^ (24 - 8 * k) % 256 := by
  rw [dataByte, BitVec.extractLsb'_toNat, Nat.shiftRight_eq_div_pow]

/-- The four bytes of a word, most significant first, are the word (R10, R105). -/
theorem be32_dataByte (v : Word) : be32 (dataByte v 0) (dataByte v 1) (dataByte v 2) (dataByte v 3) = v := by
  simp only [be32, dataByte]
  rw [BitVec.extractLsb'_append_extractLsb'_eq_extractLsb' (by decide),
    BitVec.extractLsb'_append_extractLsb'_eq_extractLsb' (by decide),
    BitVec.extractLsb'_append_extractLsb'_eq_extractLsb' (by decide)]
  exact BitVec.extractLsb'_eq_self

theorem byteAt_eq (b : Block) (i : Fin 64) : byteAt b i.val = b[i] := dif_pos i.isLt

/-- `UPDATE 4` writes its data bytes at the four positions from `fill` on, where the block has room for them (R105,
R106). -/
theorem updated_four_byteAt {s : State} {k : Nat} (hk : k < 4) (hroom : s.fill.val + k < 64) :
    byteAt (updated 4 s).buf (s.fill.val + k) = dataByte s.data k := by
  refine (byteAt_eq _ ⟨s.fill.val + k, hroom⟩).trans ?_
  rw [updated_buf_get, show (s.fill.val + k + 64 - s.fill.val) % 64 = k by omega]
  exact if_pos hk

/-- Settles O33: the four bytes that `UPDATE 4` writes from an aligned `fill` on are those of one schedule word. -/
theorem dataIsAbsorbedMostSignificantByteFirst : Obligations.DataIsAbsorbedMostSignificantByteFirst := by
  refine ⟨fun data nb _ => ⟨updateBytes_length data nb, fun k hk => ⟨dataByte data k, ?_, dataByte_toNat data k⟩⟩,
    fun s hf hl halign => ⟨updated 4 s, execUpdate_accepted 4 s (by decide) hf hl, ?_⟩⟩
  · rw [updateBytes_get, if_pos hk]
  · have hbyte : ∀ k < 4, byteAt (updated 4 s).buf (s.fill.val + k) = dataByte s.data k :=
      fun k hk => updated_four_byteAt hk (by omega)
    have hzero : byteAt (updated 4 s).buf s.fill.val = dataByte s.data 0 := hbyte 0 (by decide)
    rw [blockWord, show 4 * (s.fill.val / 4) = s.fill.val by omega, hzero, hbyte 1 (by decide),
      hbyte 2 (by decide), hbyte 3 (by decide), be32_dataByte]

/-! ## `FINISH` -/

theorem execFinish_accepted {s : State} (hf : s.finished = false) : execFinish s = .next (closed s) := by
  simp [execFinish, hf]

/-- The buffer with the byte `0x80` behind the tail and zeros from there on (R113, steps 1 to 3). -/
theorem buf_marked_zeroed (s : State) (i : Fin 64) :
    (if s.fill.val + 1 ≤ i.val then 0x00 else (s.buf.set s.fill 0x80)[i]) =
      if i.val < s.fill.val then s.buf[i] else if i.val = s.fill.val then 0x80 else 0x00 := by
  rw [Fin.getElem_fin, Vector.getElem_set]
  obtain h | h | h := Nat.lt_trichotomy i.val s.fill.val
  · rw [if_neg (by omega), if_neg (by omega), if_pos h]
    rfl
  · rw [if_neg (by omega), if_pos h.symm, if_neg (by omega), if_pos h]
  · rw [if_pos (by omega), if_neg (by omega), if_neg (by omega)]

/-- `FINISH` where the length fits into the block (R113, R117). -/
theorem closed_one_block {s : State} (h : s.fill.val ≤ 55) :
    let last := lastBlock s.bitcnt (s.fill.val + 1) (s.buf.set s.fill 0x80)
    (closed s).H = compress s.H last ∧ (closed s).buf = last := by
  simp [pad_one_block s h]

/-- `FINISH` where the length needs a second block (R113, R117). -/
theorem closed_two_blocks {s : State} (h : 56 ≤ s.fill.val) :
    let full := zeroFill (s.fill.val + 1) 63 (s.buf.set s.fill 0x80)
    let last := lastBlock s.bitcnt 0 zeroBlock
    (closed s).H = compress (compress s.H full) last ∧ (closed s).buf = last := by
  simp [pad_two_blocks s h]

/-- Settles O38: the blocks of `closed_one_block` and `closed_two_blocks`, byte by byte. -/
theorem finishPadsAndCompresses : Obligations.FinishPadsAndCompresses := by
  intro s hf len first one two
  refine ⟨closed s, execFinish_accepted hf, rfl, rfl, by simp [pad_frame], fun h => ?_, fun h => ?_⟩
  · have hone : lastBlock s.bitcnt (s.fill.val + 1) (s.buf.set s.fill 0x80) = one := by
      refine block_eq_ofFn fun i => ?_
      rw [lastBlock_get, buf_marked_zeroed]
    rw [← hone]
    exact closed_one_block h
  · have hfirst : zeroFill (s.fill.val + 1) 63 (s.buf.set s.fill 0x80) = Vector.ofFn first := by
      refine block_eq_ofFn fun i => ?_
      rw [zeroFill_get]
      exact (if_congr (by omega) rfl rfl).trans (buf_marked_zeroed s i)
    have htwo : lastBlock s.bitcnt 0 zeroBlock = two := by
      refine block_eq_ofFn fun i => ?_
      rw [lastBlock_get, if_pos (Nat.zero_le _)]
    rw [← hfirst, ← htwo]
    exact closed_two_blocks h

end Sys2Proof.Proofs
end

section
/-! PROOFS. Runs of ABSORB groups (spec 40_commands.md R110, R118): what a group leaves, that its split does not matter,
and the digest at the end of a hash sequence. -/

namespace Sys2Proof.Proofs

open Sys2Proof.Machine Sys2Proof.Laws

/-! ## What absorbing does not read -/

/-- `s` with other values of the registers that a host writes or counts with while it absorbs, and of the interface. -/
def withHost (n : Count) (v : Word) (r : Option Response) (p : List HostEvent) (s : State) : State :=
  { s with bitcnt := n, data := v, response := r, pending := p }

/-- Absorbing a byte neither reads nor writes `bitcnt`, `data` and the interface (R106). -/
theorem appendByte_withHost (x : Byte) (n : Count) (v : Word) (r : Option Response) (p : List HostEvent) (s : State) :
    appendByte x (withHost n v r p s) = withHost n v r p (appendByte x s) := by
  obtain ⟨hroom, e⟩ | ⟨hfull, e⟩ := appendByte_cases x s
  · rw [e]
    exact appendByte_room x (withHost n v r p s) hroom
  · rw [e]
    exact appendByte_full x (withHost n v r p s) hfull

theorem appendBytes_withHost (xs : List Byte) (n : Count) (v : Word) (r : Option Response) (p : List HostEvent)
    (s : State) : appendBytes xs (withHost n v r p s) = withHost n v r p (appendBytes xs s) := by
  induction xs generalizing s with
  | nil => rfl
  | cons x xs ih => rw [appendBytes, appendByte_withHost, ih, appendBytes]

/-! ## The data word of a group -/

/-- The four bytes of a concatenation, most significant first. -/
theorem extractLsb'_append_four (b0 b1 b2 b3 : Byte) :
    (((b0 ++ b1) ++ b2) ++ b3).extractLsb' 24 8 = b0 ∧ (((b0 ++ b1) ++ b2) ++ b3).extractLsb' 16 8 = b1 ∧
    (((b0 ++ b1) ++ b2) ++ b3).extractLsb' 8 8 = b2 ∧ (((b0 ++ b1) ++ b2) ++ b3).extractLsb' 0 8 = b3 := by
  simp only [BitVec.extractLsb'_append_eq_of_le, BitVec.extractLsb'_append_eq_right, BitVec.extractLsb'_eq_self,
    Nat.reduceLeDiff, Nat.reduceSub, le_refl, and_self]

/-- `UPDATE 4` presents the four bytes of `BE32` in their order (R10, R105). -/
theorem updateBytes_be32 (b0 b1 b2 b3 : Byte) : updateBytes (be32 b0 b1 b2 b3) 4 = [b0, b1, b2, b3] := by
  obtain ⟨h0, h1, h2, h3⟩ := extractLsb'_append_four b0 b1 b2 b3
  show [(((b0 ++ b1) ++ b2) ++ b3).extractLsb' 24 8, (((b0 ++ b1) ++ b2) ++ b3).extractLsb' 16 8,
    (((b0 ++ b1) ++ b2) ++ b3).extractLsb' 8 8, (((b0 ++ b1) ++ b2) ++ b3).extractLsb' 0 8] = _
  rw [h0, h1, h2, h3]

/-- A shorter `UPDATE` presents the first bytes of `UPDATE 4` (R105). -/
theorem updateBytes_take (v : Word) {n : Nat} (h : n ≤ 4) : updateBytes v n = (updateBytes v 4).take n := by
  simp [updateBytes, ← List.map_take, List.take_range, h]

/-- The word that a group of up to four bytes writes to `DATA` presents the group (R81, R105). -/
theorem updateBytes_group (b : Byte) {rest : List Byte} (h : rest.length ≤ 3) :
    updateBytes (be32 b (rest.getD 0 0) (rest.getD 1 0) (rest.getD 2 0)) (rest.length + 1) = b :: rest := by
  rw [updateBytes_take _ (by omega), updateBytes_be32]
  match rest, h with
  | [], _ => rfl
  | [_], _ => rfl
  | [_, _], _ => rfl
  | [_, _, _], _ => rfl

/-! ## Performing a group -/

/-- The assembler's line `UPDATE n` with a legal `n` runs its command (R80, R141). -/
theorem performTransaction_asmUpdate {n : Nat} (hn : n ≤ 4) (s : State) :
    performTransaction (asmUpdate n) s = execUpdate (BitVec.ofNat 3 n) s := by
  have hline : asmUpdate n = wr .CMD (cmdWord (BitVec.ofNat 3 n) 0x2) := asmUpdate_eq ⟨n, by omega⟩
  have hdecode : decodeCmd (cmdWord (BitVec.ofNat 3 n) 0x2) = .update (BitVec.ofNat 3 n) :=
    (decodeCmd_updateWord ⟨n, by omega⟩).trans (if_pos hn)
  have hwrite : ∀ v, performTransaction (wr .CMD v) s = execWrCmd v s := fun _ => rfl
  rw [hline, hwrite, execWrCmd, hdecode]

/-- An `UPDATE` that presents exactly the bytes of `xs` absorbs them and counts their bits (R104, R107). -/
theorem performTransaction_asmUpdate_bytes {xs : List Byte} {s : State} (hlen : xs.length ≤ 4)
    (hbytes : updateBytes s.data xs.length = xs) (hf : s.finished = false)
    (hl : s.bitcnt.toNat + 8 * xs.length ≤ 2 ^ 64 - 1) :
    performTransaction (asmUpdate xs.length) s =
      .next (withHost (s.bitcnt + BitVec.ofNat 64 (8 * xs.length)) s.data (some (.okay none)) s.pending
        (appendBytes xs s)) := by
  have hnb : (BitVec.ofNat 3 xs.length).toNat = xs.length := by
    rw [BitVec.toNat_ofNat]
    omega
  have hcount : ∀ n, setBitcnt n s = withHost n s.data s.response s.pending s := fun _ => rfl
  rw [performTransaction_asmUpdate hlen, execUpdate_accepted _ s (by omega) hf (by omega), updated, hnb, hbytes, hcount,
    appendBytes_withHost]
  rfl

/-! ## Runs -/

theorem run_succ {M : Host.Core} {s t : M.State} (h : M.step s = .next t) (k : Nat) :
    M.run (k + 1) s = M.run k t := by
  rw [Host.Core.run, h]

/-- A run whose first `m` steps answer a state goes on from there. -/
theorem run_add {M : Host.Core} {s t : M.State} {m : Nat} (h : M.run m s = .next t) (k : Nat) :
    M.run (m + k) s = M.run k t := by
  induction m generalizing s with
  | zero =>
    injection h with h
    rw [Nat.zero_add, h]
  | succ m ih =>
    cases hs : M.step s with
    | next u => rw [Nat.succ_add, run_succ hs, ih (run_succ hs m ▸ h)]
    | fault r | refused r => simp [Host.Core.run, hs] at h

/-- `s` with these transactions offered, and other events after them. -/
def offeringBefore (rest : List HostEvent) (ts : List Transaction) (s : State) : State :=
  { s with pending := ts.map HostEvent.transact ++ rest }

theorem offering_eq (ts : List Transaction) (s : State) : offering ts s = offeringBefore [] ts s := by
  simp [offering, offeringBefore]

theorem offeringBefore_append (rest : List HostEvent) (ts us : List Transaction) (s : State) :
    offeringBefore rest (ts ++ us) s = offeringBefore (us.map HostEvent.transact ++ rest) ts s := by
  simp [offeringBefore]

/-- Running the first transaction offered, and then the others (R57). -/
theorem run_offeringBefore_cons {s t : State} {tr : Transaction} {ts : List Transaction} {rest : List HostEvent}
    (h : performTransaction tr { s with pending := ts.map HostEvent.transact ++ rest } = .next t) (k : Nat) :
    Host.Core.run Sys2Proof.core (k + 1) (offeringBefore rest (tr :: ts) s) = Host.Core.run Sys2Proof.core k t :=
  run_succ (M := Sys2Proof.core) (s := offeringBefore rest (tr :: ts) s) (t := t)
    ((step_transact (s := offeringBefore rest (tr :: ts) s) rfl).trans h) k

/-- Running one group: its bytes are absorbed and counted, whatever is left in `DATA` (R81, R104). -/
theorem run_absorb {xs : List Byte} {s : State} (hlen : xs.length ≤ 4) (hf : s.finished = false)
    (hl : s.bitcnt.toNat + 8 * xs.length ≤ 2 ^ 64 - 1) (rest : List HostEvent) :
    ∃ v, Host.Core.run Sys2Proof.core (absorb xs).length (offeringBefore rest (absorb xs) s) =
      .next (withHost (s.bitcnt + BitVec.ofNat 64 (8 * xs.length)) v (some (.okay none)) rest (appendBytes xs s)) := by
  cases xs with
  | nil =>
    refine ⟨s.data, run_offeringBefore_cons ?_ 0⟩
    exact performTransaction_asmUpdate_bytes (xs := []) (s := withHost s.bitcnt s.data s.response rest s) hlen rfl hf hl
  | cons b bs =>
    have hrest : bs.length ≤ 3 := by rwa [List.length_cons, Nat.succ_le_succ_iff] at hlen
    let v := be32 b (bs.getD 0 0) (bs.getD 1 0) (bs.getD 2 0)
    let loaded := withHost s.bitcnt v (some (.okay none)) rest s
    have hload : performTransaction (wr .DATA v)
          { s with pending := [asmUpdate (bs.length + 1)].map HostEvent.transact ++ rest } =
        .next (offeringBefore rest [asmUpdate (bs.length + 1)] loaded) := rfl
    have hupdate := performTransaction_asmUpdate_bytes (s := loaded) hlen (updateBytes_group b hrest) hf hl
    refine ⟨v, (run_offeringBefore_cons hload 1).trans ((run_offeringBefore_cons hupdate 0).trans ?_)⟩
    rw [appendBytes_withHost]
    rfl

/-- Running groups one after another absorbs their bytes, whatever is left in `DATA` (R109, R110). -/
theorem run_groups (groups : List (List Byte)) {s : State} (hg : ∀ g ∈ groups, g.length ≤ 4)
    (hf : s.finished = false) (hl : s.bitcnt.toNat + 8 * groups.flatten.length ≤ 2 ^ 64 - 1)
    (rest : List HostEvent) :
    ∃ v r, Host.Core.run Sys2Proof.core (groups.flatMap absorb).length
        (offeringBefore rest (groups.flatMap absorb) s) =
      .next (withHost (s.bitcnt + BitVec.ofNat 64 (8 * groups.flatten.length)) v r rest
        (appendBytes groups.flatten s)) := by
  induction groups generalizing s with
  | nil =>
    exact ⟨s.data, s.response, by simp [Host.Core.run, offeringBefore, withHost, appendBytes]⟩
  | cons g gs ih =>
    rw [List.flatten_cons, List.length_append] at hl
    obtain ⟨v, hrun⟩ :=
      run_absorb (hg g List.mem_cons_self) hf (by omega) ((gs.flatMap absorb).map HostEvent.transact ++ rest)
    let next := withHost (s.bitcnt + BitVec.ofNat 64 (8 * g.length)) v (some (.okay none)) rest (appendBytes g s)
    have hbits : next.bitcnt.toNat = s.bitcnt.toNat + 8 * g.length := bitcnt_add_toNat (by omega)
    obtain ⟨-, hfinished, -⟩ := appendBytes_frame g s
    obtain ⟨v', r, hrest⟩ :=
      ih (s := next) (fun g' h => hg g' (List.mem_cons_of_mem g h)) (hfinished.trans hf) (by omega)
    have hcount : next.bitcnt + BitVec.ofNat 64 (8 * gs.flatten.length) =
        s.bitcnt + BitVec.ofNat 64 (8 * (g ++ gs.flatten).length) := by
      rw [List.length_append, Nat.mul_add, BitVec.ofNat_add, ← BitVec.add_assoc]
      rfl
    refine ⟨v', r, ?_⟩
    rw [List.flatMap_cons, List.length_append, offeringBefore_append, run_add hrun, List.flatten_cons, ← hcount,
      appendBytes_append]
    refine hrest.trans ?_
    rw [appendBytes_withHost]
    rfl

/-- Settles O44: both runs leave what absorbing the joined bytes leaves. -/
theorem absorbingIsIndependentOfTheSplit : Obligations.AbsorbingIsIndependentOfTheSplit := by
  intro s groups groups' hg hg' hsame hf hl
  obtain ⟨v, r, hrun⟩ := run_groups groups hg hf hl []
  obtain ⟨v', r', hrun'⟩ := run_groups groups' hg' hf (hsame ▸ hl) []
  obtain ⟨-, -, herr, -⟩ := appendBytes_frame groups.flatten s
  rw [hsame] at hrun'
  rw [offering_eq, offering_eq]
  exact ⟨_, _, hrun, hrun', rfl, rfl, herr, herr, rfl, rfl, rfl, rfl⟩

/-! ## The hash sequence -/

/-- Bytes absorbed after `INIT` are the message (R26, R109). -/
theorem absorbed_appendBytes {xs : List Byte} {s : State} {n : Count} {v : Word} {r : Option Response}
    {p : List HostEvent} (hfill : s.fill = 0) (hH : s.H = iv) (hf : s.finished = false)
    (hbits : n.toNat = 8 * xs.length) : Absorbed xs (withHost n v r p (appendBytes xs s)).toEngine := by
  have hempty : tailOf s = [] := List.eq_nil_of_length_eq_zero (by rw [tailOf_length, hfill]; rfl)
  obtain ⟨hfold, -, htail⟩ := appendBytes_spec xs s
  obtain ⟨-, hfinished, -⟩ := appendBytes_frame xs s
  rw [hempty, List.nil_append] at hfold htail
  exact absorbed_of_tailOf (hfinished.trans hf) hbits (hH ▸ hfold) htail

theorem performTransaction_asmFinish {s : State} (hf : s.finished = false) :
    performTransaction asmFinish s = .next (closed s) :=
  execFinish_accepted hf

/-- `INIT`, groups and `FINISH` run to the end: they close what absorbing the joined bytes after `INIT` leaves (R118,
R233). -/
theorem run_hashGroups (s : State) {groups : List (List Byte)} (hg : ∀ g ∈ groups, g.length ≤ 4)
    (hl : 8 * groups.flatten.length ≤ 2 ^ 64 - 8) :
    ∃ v r, Host.Core.run Sys2Proof.core (hashGroups groups).length (offering (hashGroups groups) s) =
      .next (closed (withHost (BitVec.ofNat 64 (8 * groups.flatten.length)) v r []
        (appendBytes groups.flatten (initialized s)))) := by
  have hzero : (initialized s).bitcnt.toNat = 0 := rfl
  obtain ⟨v, r, hrun⟩ := run_groups groups (s := initialized s) hg rfl (by omega) [.transact asmFinish]
  let absorbed := withHost ((initialized s).bitcnt + BitVec.ofNat 64 (8 * groups.flatten.length)) v r []
    (appendBytes groups.flatten (initialized s))
  obtain ⟨-, hfinished, -⟩ := appendBytes_frame groups.flatten (initialized s)
  have hinit : performTransaction asmInit
        { s with pending := (groups.flatMap absorb ++ [asmFinish]).map HostEvent.transact ++ [] } =
      .next (offeringBefore [] (groups.flatMap absorb ++ [asmFinish]) (initialized s)) := rfl
  have hfinish : performTransaction asmFinish absorbed = .next (closed absorbed) :=
    performTransaction_asmFinish hfinished
  have hcount : (initialized s).bitcnt + BitVec.ofNat 64 (8 * groups.flatten.length) =
      BitVec.ofNat 64 (8 * groups.flatten.length) := BitVec.zero_add _
  refine ⟨v, r, ?_⟩
  rw [offering_eq]
  refine (run_offeringBefore_cons hinit (groups.flatMap absorb ++ [asmFinish]).length).trans ?_
  rw [List.length_append, offeringBefore_append]
  refine (run_add hrun 1).trans ((run_offeringBefore_cons (s := absorbed) (ts := []) (rest := []) hfinish 0).trans ?_)
  rw [← hcount]
  rfl

/-- Settles O45: the groups leave the message absorbed, and `FINISH` then its digest. -/
theorem hashSequenceLeavesTheDigestOfTheMessage : Obligations.HashSequenceLeavesTheDigestOfTheMessage := by
  intro s groups hg hl
  obtain ⟨v, r, hrun⟩ := run_hashGroups s hg hl
  let whole := withHost (BitVec.ofNat 64 (8 * groups.flatten.length)) v r []
    (appendBytes groups.flatten (initialized s))
  obtain ⟨-, hfinished, herr, hcode, -⟩ := appendBytes_frame groups.flatten (initialized s)
  obtain ⟨-, -, herr', hcode', -, -, hpending, -⟩ := pad_frame whole
  have hmessage : Absorbed groups.flatten whole.toEngine :=
    absorbed_appendBytes rfl rfl rfl (by rw [BitVec.toNat_ofNat]; omega)
  have hdigest := absorbed_closed hmessage hfinished
  exact ⟨closed whole, hrun, hpending, rfl, herr'.trans herr, hcode'.trans hcode, hdigest.bits,
    congrArg serialize (hdigest.digest rfl)⟩

end Sys2Proof.Proofs
end

section
/-! PROOFS. Register access (spec 41_register_access.md): the command a `CMD` write runs, the registers read back at
their bits, the gated digest reads, and the digest's bytes. -/

namespace Sys2Proof.Proofs

open Sys2Proof.Machine Sys2Proof.Laws

/-! ## Writes of `CMD` and `DATA` -/

/-- A write of `CMD` runs the instruction that its word decodes to (R74, R141). -/
theorem exec_wrCmd_decoded {c : Word} {i : Instr} (h : (decodeCmd c).toInstr = .ok i) (s : State) :
    exec (.wrCmd c) s = exec i s := by
  cases hc : decodeCmd c with
  | init | update nb | finish =>
    rw [hc] at h
    cases h
    simp only [exec, execWrCmd, hc]
  | illegal =>
    rw [hc] at h
    cases h

/-- Settles O24: a word that decodes runs its command, and an illegal one is rejected. -/
theorem commandWriteRunsItsCommand : Obligations.CommandWriteRunsItsCommand := fun s _ =>
  ⟨fun h => exec_wrCmd_decoded (congrArg Cmd.toInstr h) s, fun _ h => exec_wrCmd_decoded (congrArg Cmd.toInstr h) s,
    fun h => exec_wrCmd_decoded (congrArg Cmd.toInstr h) s, fun h => exec_wrCmd_illegal h s⟩

/-- An accepted read changes only the response (R11, R51). -/
theorem okayRead_eq (v : Word) (s : State) : okayRead v s = { s with response := some (.okay (some v)) } := rfl

theorem exec_rdData (s : State) : exec .rdData s = .next (okayRead s.data s) := rfl

theorem exec_wrData (v : Word) (s : State) :
    exec (.wrData v) s = .next { s with data := v, response := some (.okay none) } := rfl

/-- Settles O26: neither transaction looks at the phase or at the error record. -/
theorem dataRegisterIsWrittenAndRead : Obligations.DataRegisterIsWrittenAndRead := fun s v =>
  ⟨exec_wrData v s, by rw [exec_rdData, okayRead_eq]⟩

/-! ## The fields of `STATUS` -/

/-- The six fields of a row of bits laid out as `STATUS` is, from the lowest on (R32). -/
theorem extractLsb'_append_six (high : BitVec 18) (fill : BitVec 6) (code : BitVec 4) (low : BitVec 2)
    (err finished : BitVec 1) :
    let w := ((((high ++ fill) ++ code) ++ low) ++ err) ++ finished
    w.extractLsb' 0 1 = finished ∧ w.extractLsb' 1 1 = err ∧ w.extractLsb' 2 2 = low ∧ w.extractLsb' 4 4 = code ∧
    w.extractLsb' 8 6 = fill ∧ w.extractLsb' 14 18 = high := by
  simp only [BitVec.extractLsb'_append_eq_of_le, BitVec.extractLsb'_append_eq_right, BitVec.extractLsb'_eq_self,
    Nat.reduceLeDiff, Nat.reduceSub, le_refl, and_self]

theorem statusWord_fields (e : Engine) :
    (statusWord e).extractLsb' 0 1 = flagBit e.finished ∧ (statusWord e).extractLsb' 1 1 = flagBit e.err ∧
    (statusWord e).extractLsb' 2 2 = 0 ∧ (statusWord e).extractLsb' 4 4 = errNumber e.errcode ∧
    (statusWord e).extractLsb' 8 6 = BitVec.ofNat 6 e.fill.val ∧ (statusWord e).extractLsb' 14 18 = 0 :=
  extractLsb'_append_six 0 _ _ 0 _ _

/-- A bit that holds a flag reads as the flag. -/
theorem getLsbD_of_extractLsb'_flagBit {w : Word} {k : Nat} {b : Bool} (h : w.extractLsb' k 1 = flagBit b) :
    w.getLsbD k = b := by
  have hbit : w.getLsbD k = (w.extractLsb' k 1).getLsbD 0 := by simp
  rw [hbit, h]
  cases b <;> rfl

theorem exec_rdStatus (s : State) : exec .rdStatus s = .next (okayRead (statusWord s.toEngine) s) := rfl

/-- Settles O27: the word is `statusWord`, and a fill count below 64 fits its six bits. -/
theorem statusReadsItsFields : Obligations.StatusReadsItsFields := by
  intro s
  obtain ⟨hfinished, herr, hlow, hcode, hfill, hhigh⟩ := statusWord_fields s.toEngine
  refine ⟨statusWord s.toEngine, by rw [exec_rdStatus, okayRead_eq], getLsbD_of_extractLsb'_flagBit hfinished,
    getLsbD_of_extractLsb'_flagBit herr, hlow, hcode, ?_, hhigh⟩
  rw [hfill, BitVec.toNat_ofNat, Nat.mod_eq_of_lt s.fill.isLt]

/-! ## The halves of the bit counter -/

theorem exec_rdBitcntLo (s : State) : exec .rdBitcntLo s = .next (okayRead (lowHalf s.bitcnt) s) := rfl

theorem exec_rdBitcntHi (s : State) : exec .rdBitcntHi s = .next (okayRead (highHalf s.bitcnt) s) := rfl

theorem lowHalf_toNat (v : Count) : (lowHalf v).toNat = v.toNat % 2 ^ 32 := by
  rw [lowHalf, BitVec.extractLsb'_toNat, Nat.shiftRight_zero]

theorem highHalf_toNat (v : Count) : (highHalf v).toNat = v.toNat / 2 ^ 32 := by
  have hlt := v.isLt
  rw [highHalf, BitVec.extractLsb'_toNat, Nat.shiftRight_eq_div_pow]
  omega

/-- The two halves joined are the counter (R34). -/
theorem highHalf_append_lowHalf (v : Count) : highHalf v ++ lowHalf v = v := by
  rw [highHalf, lowHalf, BitVec.extractLsb'_append_extractLsb'_eq_extractLsb' (by decide)]
  exact BitVec.extractLsb'_eq_self

/-- Settles O29: the two reads return `lowHalf` and `highHalf`. -/
theorem bitCounterReadsItsHalves : Obligations.BitCounterReadsItsHalves := fun s =>
  ⟨lowHalf s.bitcnt, highHalf s.bitcnt, by rw [exec_rdBitcntLo, okayRead_eq], by rw [exec_rdBitcntHi, okayRead_eq],
    lowHalf_toNat _, highHalf_toNat _, highHalf_append_lowHalf _⟩

/-! ## The digest reads -/

/-- The five digest reads are one operation on their index (R148). -/
theorem exec_rdDigest (k : Fin 5) (s : State) :
    exec [Instr.rdDigest0, .rdDigest1, .rdDigest2, .rdDigest3, .rdDigest4][k] s = .next (readDigest k s) := by
  fin_cases k <;> rfl

theorem readDigest_finished (k : Fin 5) {s : State} (hf : s.finished = true) : readDigest k s = okayRead s.H[k] s :=
  if_pos hf

theorem readDigest_absorbing (k : Fin 5) {s : State} (hf : s.finished = false) :
    readDigest k s = reject .resultBeforeFinish true s :=
  if_neg (by rw [hf]; decide)

/-- Settles O30: in `FINISHED` the read is accepted, in `ABSORBING` it is rejected. -/
theorem digestReadsAreGatedByThePhase : Obligations.DigestReadsAreGatedByThePhase := by
  intro s k
  refine ⟨fun hf => ?_, fun hf => ?_⟩
  · rw [exec_rdDigest, readDigest_finished k hf, okayRead_eq]
  · rw [exec_rdDigest, readDigest_absorbing k hf, reject_eq, if_pos rfl]

/-! ## The digest's bytes -/

/-- `BEbytes32` gives the bytes in the order in which `UPDATE 4` absorbs them (R10, R105). -/
theorem beBytes32_eq_updateBytes (w : Word) : beBytes32 w = updateBytes w 4 := rfl

theorem beBytes32_getElem? (w : Word) {j : Nat} (hj : j < 4) : (beBytes32 w)[j]? = some (dataByte w j) := by
  rw [beBytes32_eq_updateBytes, updateBytes_get, if_pos hj]

/-- In a row of words of four bytes each, byte `4 i + j` is byte `j` of word `i`. -/
theorem flatMap_beBytes32_getElem? (ws : List Word) (i : Nat) {j : Nat} (hj : j < 4) :
    (ws.flatMap beBytes32)[4 * i + j]? = ws[i]?.map (dataByte · j) := by
  induction ws generalizing i with
  | nil => rfl
  | cons w ws ih =>
    rw [List.flatMap_cons]
    cases i with
    | zero =>
      rw [Nat.mul_zero, Nat.zero_add, List.getElem?_append_left hj, beBytes32_getElem? w hj]
      rfl
    | succ i =>
      rw [List.getElem?_append_right (by rw [beBytes32_length]; omega), beBytes32_length,
        show 4 * (i + 1) + j - 4 = 4 * i + j by omega, ih]
      rfl

theorem serialize_eq_flatMap (h : Digest) : serialize h = (List.ofFn fun i : Fin 5 => h[i]).flatMap beBytes32 := by
  simp [serialize, List.ofFn_succ]

/-- Settles O31: `serialize` is the row of the five words. -/
theorem digestIsSerializedBigEndian : Obligations.DigestIsSerializedBigEndian := by
  intro h
  refine ⟨rfl, fun i j => ?_⟩
  rw [serialize_eq_flatMap, flatMap_beBytes32_getElem? _ i.val j.isLt, List.getElem?_ofFn, dif_pos i.isLt]
  rfl

end Sys2Proof.Proofs
end

section
/-! PROOFS. The compression function (spec 42_compression.md): the schedule word by word, the rounds one by one, and the
invariant by which the iterative datapath computes them. -/

namespace Sys2Proof.Proofs

open Sys2Proof.Machine Sys2Proof.Laws

/-! ## The message schedule -/

/-- `W[t]` of a block, for `t` below 80 (R171, R172). -/
def scheduleAt (b : Block) (t : Nat) : Word := (schedule b)[t]?.getD 0

theorem schedule_getElem? (b : Block) {t : Nat} (ht : t < 80) : (schedule b)[t]? = some (scheduleAt b t) := by
  rw [scheduleAt, List.getElem?_eq_getElem (by rwa [schedule_length]), Option.getD_some]

theorem scheduleAt_head (b : Block) {j : Nat} (hj : j < 16) : scheduleAt b j = blockWord b j := by
  rw [scheduleAt, schedule_head b j hj, Option.getD_some]

theorem scheduleAt_recurrence (b : Block) {t : Nat} (h16 : 16 ≤ t) (h80 : t < 80) :
    scheduleAt b t = scheduleWord (scheduleAt b (t - 3)) (scheduleAt b (t - 8)) (scheduleAt b (t - 14))
      (scheduleAt b (t - 16)) :=
  schedule_get b t h16 h80

theorem scheduleWord_eq (w3 w8 w14 w16 : Word) :
    scheduleWord w3 w8 w14 w16 = (w3 ^^^ w8 ^^^ w14 ^^^ w16).rotateLeft 1 :=
  rotl_eq_rotateLeft _ 1 (by decide)

/-- Settles O49: the words of `scheduleAt`, with its recurrence. -/
theorem scheduleFollowsItsRecurrence : Obligations.ScheduleFollowsItsRecurrence := by
  refine fun b => ⟨schedule_length b, fun t h16 h80 => ⟨scheduleAt b (t - 3), scheduleAt b (t - 8),
    scheduleAt b (t - 14), scheduleAt b (t - 16), schedule_getElem? b (by omega), schedule_getElem? b (by omega),
    schedule_getElem? b (by omega), schedule_getElem? b (by omega), ?_⟩⟩
  rw [schedule_getElem? b h80, scheduleAt_recurrence b h16 h80, scheduleWord_eq]

/-- Byte `k` of four bytes joined big-endian is the `k`-th of them (R10). -/
theorem dataByte_be32 (b0 b1 b2 b3 : Byte) (k : Fin 4) : dataByte (be32 b0 b1 b2 b3) k.val = [b0, b1, b2, b3][k] := by
  have hget : (updateBytes (be32 b0 b1 b2 b3) 4)[k.val]? = some (dataByte (be32 b0 b1 b2 b3) k.val) := by
    rw [updateBytes_get, if_pos k.isLt]
  rw [updateBytes_be32] at hget
  exact (List.getElem_of_getElem? hget).2.symm

/-- The bytes of a word of the block (R171). -/
theorem dataByte_blockWord (b : Block) (j : Nat) (k : Fin 4) :
    dataByte (blockWord b j) k.val = byteAt b (4 * j + k.val) := by
  rw [blockWord, dataByte_be32]
  fin_cases k <;> rfl

/-- Settles O48: the first 16 words of the schedule are those of the block. -/
theorem scheduleStartsWithTheBlockBigEndian : Obligations.ScheduleStartsWithTheBlockBigEndian := fun b j =>
  ⟨blockWord b j.val, schedule_head b j.val j.isLt, fun k =>
    (dataByte_blockWord b j.val k).trans (byteAt_eq b ⟨4 * j.val + k.val, by omega⟩)⟩

/-! ## The round functions and constants -/

theorem ch_getLsbD (b c d : Word) {k : Nat} (hk : k < 32) :
    (ch b c d).getLsbD k = ((b.getLsbD k && c.getLsbD k) || (!b.getLsbD k && d.getLsbD k)) := by
  simp [ch, hk]

theorem parity_getLsbD (b c d : Word) (k : Nat) :
    (parity b c d).getLsbD k = xor (xor (b.getLsbD k) (c.getLsbD k)) (d.getLsbD k) := by
  simp [parity]

theorem maj_getLsbD (b c d : Word) (k : Nat) :
    (maj b c d).getLsbD k =
      ((b.getLsbD k && c.getLsbD k) || (b.getLsbD k && d.getLsbD k) || (c.getLsbD k && d.getLsbD k)) := by
  simp [maj]

/-- The four ranges of rounds, with the function and the constant of each (R175, R176). -/
theorem round_ranges (t : Nat) :
    (t < 20 → roundFunction t = ch ∧ roundConstant t = 0x5A827999) ∧
    (20 ≤ t ∧ t < 40 → roundFunction t = parity ∧ roundConstant t = 0x6ED9EBA1) ∧
    (40 ≤ t ∧ t < 60 → roundFunction t = maj ∧ roundConstant t = 0x8F1BBCDC) ∧
    (60 ≤ t → roundFunction t = parity ∧ roundConstant t = 0xCA62C1D6) := by
  refine ⟨fun h => ?_, fun h => ?_, fun h => ?_, fun h => ?_⟩
  · have h19 : t ≤ 19 := by omega
    exact ⟨by funext b c d; simp [roundFunction, h19], by simp [roundConstant, h19]⟩
  · have h19 : ¬t ≤ 19 := by omega
    have h39 : t ≤ 39 := by omega
    exact ⟨by funext b c d; simp [roundFunction, h19, h39], by simp [roundConstant, h19, h39]⟩
  · have h19 : ¬t ≤ 19 := by omega
    have h39 : ¬t ≤ 39 := by omega
    have h59 : t ≤ 59 := by omega
    exact ⟨by funext b c d; simp [roundFunction, h19, h39, h59], by simp [roundConstant, h19, h39, h59]⟩
  · have h19 : ¬t ≤ 19 := by omega
    have h39 : ¬t ≤ 39 := by omega
    have h59 : ¬t ≤ 59 := by omega
    exact ⟨by funext b c d; simp [roundFunction, h19, h39, h59], by simp [roundConstant, h19, h39, h59]⟩

/-- Settles O50: the ranges of `round_ranges`, and each function bit by bit. -/
theorem roundFunctionsAndConstantsFollowTheirRanges : Obligations.RoundFunctionsAndConstantsFollowTheirRanges := by
  intro t b c d k _ hk x y z
  obtain ⟨hch, hparity, hmaj, hparity'⟩ := round_ranges t
  refine ⟨fun h => ?_, fun h => ?_, fun h => ?_, fun h => ?_⟩
  · obtain ⟨hf, hK⟩ := hch h
    exact ⟨by rw [hf, ch_getLsbD b c d hk], hK⟩
  · obtain ⟨hf, hK⟩ := hparity h
    exact ⟨by rw [hf, parity_getLsbD], hK⟩
  · obtain ⟨hf, hK⟩ := hmaj h
    exact ⟨by rw [hf, maj_getLsbD], hK⟩
  · obtain ⟨hf, hK⟩ := hparity' h
    exact ⟨by rw [hf, parity_getLsbD], hK⟩

/-! ## The 80 rounds -/

/-- The working variables before round `t` of a compression (R177, R178). -/
def workingAt (h : Digest) (b : Block) (t : Nat) : Working := runRounds 0 ((schedule b).take t) (loadWorking h)

theorem workingAt_zero (h : Digest) (b : Block) : workingAt h b 0 = loadWorking h := rfl

theorem workingAt_succ (h : Digest) (b : Block) {t : Nat} (ht : t < 80) :
    workingAt h b (t + 1) = roundStep t (scheduleAt b t) (workingAt h b t) := by
  have hlen : ((schedule b).take t).length = t := by
    rw [List.length_take, schedule_length]
    omega
  rw [workingAt, List.take_add_one, schedule_getElem? b ht, runRounds_append, hlen, Nat.zero_add]
  rfl

/-- After round 79 comes the final addition (R179). -/
theorem compress_eq_addWorking (h : Digest) (b : Block) : compress h b = addWorking h (workingAt h b 80) := by
  rw [compress, workingAt, List.take_of_length_le (by rw [schedule_length])]

/-- Settles O51: the working variables of `workingAt`. -/
theorem compressIsEightyRoundsAndAnAddition : Obligations.CompressIsEightyRoundsAndAnAddition := fun h b =>
  ⟨workingAt h b, workingAt_zero h b,
    fun t ht => ⟨scheduleAt b t, schedule_getElem? b ht, (workingAt_succ h b ht).trans (roundStep_eq ..)⟩,
    compress_eq_addWorking h b⟩

/-! ## The rolling window -/

theorem windowAt_congr (w : ScheduleWindow) {i j : Nat} (h : i % 16 = j % 16) : windowAt w i = windowAt w j := by
  simp only [windowAt, h]

theorem windowAt_set (w : ScheduleWindow) (i k : Nat) (x : Word) :
    windowAt (w.set (i % 16) x (Nat.mod_lt _ (by decide))) k = if i % 16 = k % 16 then x else windowAt w k :=
  Vector.getElem_set ..

/-- The window holds the 16 schedule words before `W[n]`, each at its index modulo 16 (R173). -/
def WindowHolds (b : Block) (n : Nat) (w : ScheduleWindow) : Prop :=
  ∀ k, k < n → n ≤ k + 16 → windowAt w k = scheduleAt b k

theorem windowHolds_loadDatapath (h : Digest) (b : Block) : WindowHolds b 16 (loadDatapath h b).wwin := by
  intro k hk _
  rw [scheduleAt_head b hk]
  simp [windowAt, loadDatapath, Nat.mod_eq_of_lt hk]

/-- The four words the update reads are those of the recurrence (R173). -/
theorem WindowHolds.taps {b : Block} {t : Nat} {w : ScheduleWindow} (hw : WindowHolds b t w) (h16 : 16 ≤ t) :
    windowAt w (t + 13) = scheduleAt b (t - 3) ∧ windowAt w (t + 8) = scheduleAt b (t - 8) ∧
    windowAt w (t + 2) = scheduleAt b (t - 14) ∧ windowAt w t = scheduleAt b (t - 16) := by
  have tap : ∀ i k, 1 ≤ k → k ≤ 16 → i % 16 = (t - k) % 16 → windowAt w i = scheduleAt b (t - k) :=
    fun i k _ _ hi => (windowAt_congr w hi).trans (hw (t - k) (by omega) (by omega))
  exact ⟨tap _ 3 (by decide) (by decide) (by omega), tap _ 8 (by decide) (by decide) (by omega),
    tap _ 14 (by decide) (by decide) (by omega), tap _ 16 (by decide) (by decide) (by omega)⟩

/-- From round 16 on, the update puts `W[t]` in the place of `W[t-16]` (R173). -/
theorem WindowHolds.turn {b : Block} {t : Nat} {w : ScheduleWindow} (hw : WindowHolds b t w) (h16 : 16 ≤ t)
    (h80 : t < 80) : WindowHolds b (t + 1) (turnWindow t w) := by
  intro k hk hk16
  obtain ⟨h3, h8, h14, hold⟩ := hw.taps h16
  rw [turnWindow, if_pos h16, windowAt_set, h3, h8, h14, hold, ← scheduleAt_recurrence b h16 h80]
  by_cases hkt : k = t
  · rw [hkt, if_pos rfl]
  · rw [if_neg (by omega), hw k (by omega) (by omega)]

/-! ## The iterative datapath -/

/-- The datapath before round `t` of a compression: up to round 16 the window holds the block's own words (R173, R177,
R181). -/
structure DatapathBefore (h : Digest) (b : Block) (t : Nat) (d : Datapath) : Prop where
  counter : d.t.toNat = t
  vars : d.vars = workingAt h b t
  window : WindowHolds b (max t 16) d.wwin

theorem datapathBefore_load (h : Digest) (b : Block) : DatapathBefore h b 0 (loadDatapath h b) :=
  ⟨rfl, rfl, windowHolds_loadDatapath h b⟩

/-- The window's update in round `t`, whether it renews an entry or not. -/
theorem DatapathBefore.turned {h : Digest} {b : Block} {t : Nat} {d : Datapath} (hd : DatapathBefore h b t d)
    (ht : t < 80) : WindowHolds b (max (t + 1) 16) (turnWindow t d.wwin) := by
  have hw := hd.window
  by_cases h16 : 16 ≤ t
  · rw [max_eq_left h16] at hw
    rw [max_eq_left (by omega)]
    exact hw.turn h16 ht
  · rw [max_eq_right (by omega)] at hw
    rw [max_eq_right (by omega), turnWindow, if_neg h16]
    exact hw

/-- The window gives `W[t]` in round `t` (R173). -/
theorem DatapathBefore.gives {h : Digest} {b : Block} {t : Nat} {d : Datapath} (hd : DatapathBefore h b t d)
    (ht : t < 80) : windowAt (turnWindow t d.wwin) t = scheduleAt b t :=
  hd.turned ht t (by omega) (by omega)

theorem DatapathBefore.clock {h : Digest} {b : Block} {t : Nat} {d : Datapath} (hd : DatapathBefore h b t d)
    (ht : t < 80) : DatapathBefore h b (t + 1) (clockDatapath d) where
  counter := by
    have hone : (1 : BitVec 7).toNat = 1 := rfl
    change (d.t + 1).toNat = t + 1
    rw [BitVec.toNat_add, hd.counter, hone]
    exact Nat.mod_eq_of_lt (by omega)
  vars := by
    simp only [clockDatapath, hd.counter, hd.vars, hd.gives ht]
    exact (workingAt_succ h b ht).symm
  window := by
    simp only [clockDatapath, hd.counter]
    exact hd.turned ht

theorem datapathBefore_run (h : Digest) (b : Block) {t : Nat} (ht : t ≤ 80) :
    DatapathBefore h b t (runDatapath t (loadDatapath h b)) := by
  induction t with
  | zero => exact datapathBefore_load h b
  | succ t ih =>
    rw [runDatapath_succ]
    exact (ih (by omega)).clock ht

/-- Settles O52: `DatapathBefore` holds before each of the rounds 0 to 80. -/
theorem rollingWindowComputesTheSchedule : Obligations.RollingWindowComputesTheSchedule := by
  intro h b
  refine ⟨?_, ?_⟩
  · intro t ht d
    have hd : DatapathBefore h b t d := datapathBefore_run h b ht.le
    refine ⟨hd.counter, ?_, fun h16 => ?_⟩
    · rw [hd.gives ht, schedule_getElem? b ht]
    · have hw : WindowHolds b t d.wwin := max_eq_left h16 ▸ hd.window
      obtain ⟨h3, h8, h14, hold⟩ := hw.taps h16
      rw [h3, h8, h14, hold]
      exact ⟨schedule_getElem? b (by omega), schedule_getElem? b (by omega), schedule_getElem? b (by omega),
        schedule_getElem? b (by omega)⟩
  · rw [compressIterative, (datapathBefore_run h b (le_refl 80)).vars, compress_eq_addWorking]

end Sys2Proof.Proofs
end

section
/-! PROOFS. Rejections (spec 60_exceptions.md): what a step on an offered transaction answers, rejected or accepted. -/

namespace Sys2Proof.Proofs

open Sys2Proof.Machine Sys2Proof.Laws

variable {s : State} {tr : Transaction} {rest : List HostEvent}

/-- A step on a rejected transaction takes it from the events offered and rejects it (R57, R202). -/
theorem step_rejected {code : ErrCode} (hp : s.pending = .transact tr :: rest)
    (h : rejection tr s.toEngine = some code) :
    step s = .next (reject code tr.isRead { s with pending := rest }) := by
  rw [step_transact hp]
  obtain ⟨code', hr, hanswer⟩ | ⟨hr, -⟩ := performTransaction_answers tr { s with pending := rest }
  · obtain rfl : code' = code := Option.some.inj (hr.symm.trans h)
    exact hanswer
  · exact absurd (h.symm.trans hr) (Option.some_ne_none code)

/-- A step on a transaction that meets no rejection completes it (R57, R201). -/
theorem step_accepted (hp : s.pending = .transact tr :: rest) (h : rejection tr s.toEngine = none) :
    ∃ t d, step s = .next t ∧ t.response = some (.okay d) := by
  rw [step_transact hp]
  obtain ⟨code, hr, -⟩ | ⟨-, haccepted⟩ := performTransaction_answers tr { s with pending := rest }
  · exact absurd (hr.symm.trans h) (Option.some_ne_none code)
  · exact haccepted

/-- Settles O46: the two answers of a step, the rejection written as one record update. -/
theorem exactlyTheListedConditionsReject : Obligations.ExactlyTheListedConditionsReject := by
  intro s tr rest hp
  cases h : rejection tr s.toEngine with
  | some code => exact (step_rejected hp h).trans (congrArg Host.Outcome.next (reject_eq code tr.isRead _))
  | none => exact step_accepted hp h

end Sys2Proof.Proofs
end

section
/-! PROOFS. Reset (spec 70_reset_and_hazards.md): the reset state, what the first accesses see of it, and reset events. -/

namespace Sys2Proof.Proofs

open Sys2Proof.Machine Sys2Proof.Laws

/-! ## The reset state -/

/-- The reads that give 0 in the reset state (R230). -/
theorem exec_read_reset (i : Instr) (hi : i ∈ [Instr.rdStatus, .rdBitcntLo, .rdBitcntHi, .rdData]) :
    exec i State.reset = .next (okayRead 0 State.reset) := by
  have hstatus : statusWord State.reset.toEngine = 0 := by decide
  have hlow : lowHalf State.reset.bitcnt = 0 := by decide
  have hhigh : highHalf State.reset.bitcnt = 0 := by decide
  simp only [List.mem_cons, List.not_mem_nil, or_false] at hi
  obtain rfl | rfl | rfl | rfl := hi
  · rw [exec_rdStatus, hstatus]
  · rw [exec_rdBitcntLo, hlow]
  · rw [exec_rdBitcntHi, hhigh]
  · exact exec_rdData State.reset

/-- Every digest read is rejected in `ABSORBING` (R148). -/
theorem exec_rdDigest_absorbing {s : State} (hf : s.finished = false) (i : Instr)
    (hi : i ∈ [Instr.rdDigest0, .rdDigest1, .rdDigest2, .rdDigest3, .rdDigest4]) :
    exec i s = .next (reject .resultBeforeFinish true s) := by
  obtain ⟨k, hk, rfl⟩ := List.mem_iff_getElem.1 hi
  exact (exec_rdDigest ⟨k, hk⟩ s).trans (congrArg Host.Outcome.next (readDigest_absorbing ⟨k, hk⟩ hf))

/-- The fill count after an accepted `UPDATE` (R106). -/
theorem updated_fill (nb : BitVec 3) (s : State) : (updated nb s).fill.val = (s.fill.val + nb.toNat) % 64 :=
  (appendBytes_fill _ _).trans (by rw [updateBytes_length, setBitcnt_toEngine])

/-- `UPDATE` is accepted right after reset, without an `INIT` (R230). -/
theorem exec_update_reset {nb : BitVec 3} (hnb : nb.toNat ≤ 4) :
    exec (.update nb) State.reset = .next (updated nb State.reset) ∧
    (updated nb State.reset).fill.val = nb.toNat ∧ (updated nb State.reset).bitcnt.toNat = 8 * nb.toNat := by
  have hfill : State.reset.fill.val = 0 := rfl
  have hbits : State.reset.bitcnt.toNat = 0 := rfl
  have hlimit : State.reset.bitcnt.toNat + 8 * nb.toNat ≤ 2 ^ 64 - 1 := by omega
  refine ⟨execUpdate_accepted nb State.reset hnb rfl hlimit, ?_, ?_⟩
  · rw [updated_fill, hfill]
    omega
  · rw [updated_bitcnt, bitcnt_add_toNat hlimit, hbits, Nat.zero_add]

/-- Settles O1: the fields are those of `Engine.reset`, and the first accesses follow from them. -/
theorem resetStateIsAsSpecified : Obligations.ResetStateIsAsSpecified := by
  refine ⟨rfl, rfl, rfl, zeroBlock_get, rfl, rfl, rfl, rfl, fun i hi => ?_, fun i hi => ?_, fun nb hnb => ?_⟩
  · rw [exec_read_reset i hi, okayRead_eq]
  · rw [exec_rdDigest_absorbing rfl i hi, reject_eq]
    rfl
  · obtain ⟨hexec, hfill, hbits⟩ := exec_update_reset hnb
    exact ⟨_, hexec, okayWrite_response _, hfill, hbits⟩

/-! ## Reset events -/

/-- A step on either reset event takes it from the events offered and resets the engine (R230, R231). -/
theorem step_reset_event {s : State} {ev : HostEvent} {rest : List HostEvent} (hp : s.pending = ev :: rest)
    (hev : ev = .reset ∨ ∃ tr, ev = .resetDuring tr) : step s = .next (resetEngine { s with pending := rest }) := by
  obtain rfl | ⟨tr, rfl⟩ := hev
  · simp only [step, acceptAndPerform, hp, performEvent]
  · simp only [step, acceptAndPerform, hp, performEvent]

/-- Settles O2: `resetEngine` writes the whole engine state and the response, and nothing of the transaction. -/
theorem resetEventReplacesTheEngineState : Obligations.ResetEventReplacesTheEngineState := by
  intro s tr rest hp
  have hstep : step s = .next (resetEngine { s with pending := rest }) := by
    obtain hp | hp := hp
    · exact step_reset_event hp (.inl rfl)
    · exact step_reset_event hp (.inr ⟨tr, rfl⟩)
  exact ⟨_, hstep, resetEngine_toEngine _, resetEngine_pending _, fun _ => resetEngine_response _⟩

end Sys2Proof.Proofs
end

section
/-! PROOFS. The invariant of every reachable state (spec 10_state.md): the message absorbed, with the error flags. -/

namespace Sys2Proof.Proofs

open Sys2Proof.Machine Sys2Proof.Laws

/-- A rejected command has a code of its own, never `NONE` (R200, R201). -/
theorem commandRejection_ne_none (c : Cmd) (e : Engine) : commandRejection c e ≠ some .none := by
  unfold commandRejection
  cases c with
  | illegal | init => simp
  | update nb | finish => dsimp only; split_ifs <;> simp

/-- No rejection of R201 has the code `NONE`. -/
theorem rejection_ne_none (tr : Transaction) (e : Engine) : rejection tr e ≠ some .none := by
  unfold rejection
  split_ifs
  · simp
  · cases tr with
    | read size off => dsimp only; split_ifs <;> simp
    | write size off v =>
      dsimp only
      split_ifs
      · exact commandRejection_ne_none _ e
      · simp

/-- With nothing offered a step keeps the state (R215). -/
theorem step_idle {s : State} (hp : s.pending = []) : step s = .next s := by
  simp only [step, acceptAndPerform, hp]

/-- A transaction keeps the code `NONE` exactly while no rejection is recorded (R29, R200). -/
theorem performTransaction_keeps_errors {tr : Transaction} {s t : State} (h : performTransaction tr s = .next t)
    (hs : s.errcode = .none ↔ s.err = false) : t.errcode = .none ↔ t.err = false := by
  obtain ⟨code, hr, rfl⟩ | ⟨-, d, ht⟩ := performTransaction_reject_or_accept h
  · -- a rejection leaves `err` set and a code other than `NONE`
    have hcode : code ≠ .none := fun hc => rejection_ne_none tr s.toEngine (hc ▸ hr)
    cases herr : s.err <;> simp [herr, hcode, hs]
  · obtain ⟨-, herr, hcode⟩ | ⟨-, herr, hcode⟩ := accepted_errors h ht
    · simp [herr, hcode]
    · rw [herr, hcode, hs]

/-- Settles O4: after reset the empty message has been absorbed. -/
theorem invariantHoldsAtReset : Obligations.InvariantHoldsAtReset where
  message := ⟨[], absorbed_nil rfl rfl rfl rfl⟩
  bound := by decide
  errors := by decide

/-- Settles O6: a step extends the absorbed message, which bounds the counter, and keeps the flags' invariant. -/
theorem stepKeepsTheMessageInvariant : Obligations.StepKeepsTheMessageInvariant := by
  intro s t ⟨⟨m, hm⟩, hbound, herrors⟩ h
  cases hp : s.pending with
  | nil =>
    injection (step_idle hp).symm.trans h with h
    exact h ▸ ⟨⟨m, hm⟩, hbound, herrors⟩
  | cons ev rest =>
    have hm' := step_absorbed hm hp h
    refine ⟨⟨_, hm'⟩, bitcnt_le_of_absorbed hm', ?_⟩
    obtain ⟨tr, -, h⟩ | ⟨-, rfl⟩ := step_event_cases hp h
    · exact performTransaction_keeps_errors h herrors
    · exact invariantHoldsAtReset.errors

end Sys2Proof.Proofs
end

section
/-! PROOFS. Decoding against encoding (spec 30_encoding.md): the two are inverse, and the words of the opcode table. -/

namespace Sys2Proof.Proofs

open Sys2Proof.Machine Sys2Proof.Laws

/-- A command word that decodes is the word of its instruction (R74). -/
theorem encode_of_decodeCmd {c : Word} {i : Instr} (h : (decodeCmd c).toInstr = .ok i) :
    i.wf = true ∧ encode i = .cmd c := by
  have hsmall : c.toNat < 128 := toNat_lt_of_decodeCmd fun hc => by simp [hc, Cmd.toInstr] at h
  rw [decodeCmd_fields hsmall] at h
  rw [← cmdWord_fields hsmall]
  split_ifs at h with hinit hupdate hfinish
  · cases h
    rw [hinit.1, hinit.2]
    exact ⟨rfl, rfl⟩
  · cases h
    rw [hupdate.1]
    exact ⟨(nbLegal_iff _).2 hupdate.2, rfl⟩
  · cases h
    rw [hfinish.1, hfinish.2]
    exact ⟨rfl, rfl⟩
  · cases h

/-- A descriptor that decodes is that of its instruction, and the transaction that presents it decodes alike: a read has
no use for the word beside it (R76, R77). -/
theorem decodeDesc_ok {d : BitVec 9} {v : Word} {i : Instr} (h : decodeDesc d v = .ok i) :
    i.wf = true ∧ encode i = (Encoding.bus d v).canonical ∧ decodeTransaction (transactionOfDesc d v) = .ok i := by
  have hmem : d ∈ acceptedDescriptors := by
    by_contra hd
    simp [decodeDesc_not_accepted hd] at h
  simp only [acceptedDescriptors, List.mem_cons, List.not_mem_nil, or_false] at hmem
  obtain rfl | rfl | rfl | rfl | rfl | rfl | rfl | rfl | rfl | rfl | rfl := hmem <;> cases h <;> exact ⟨rfl, rfl, rfl⟩

/-- Every well-formed instruction's encoding decodes to it, row by row of the opcode table. -/
theorem decode_encode (i : Instr) (h : i.wf = true) : decode (encode i) = .ok i := by
  have hrow : TableRow.Statement i := by
    cases i with
    | init => exact TableRow.init
    | update nb => exact TableRow.update nb
    | finish => exact TableRow.finish
    | wrCmd v => exact TableRow.wrCmd v
    | wrData v => exact TableRow.wrData v
    | rdData => exact TableRow.rdData
    | rdStatus => exact TableRow.rdStatus
    | rdBitcntLo => exact TableRow.rdBitcntLo
    | rdBitcntHi => exact TableRow.rdBitcntHi
    | rdDigest0 => exact TableRow.rdDigest0
    | rdDigest1 => exact TableRow.rdDigest1
    | rdDigest2 => exact TableRow.rdDigest2
    | rdDigest3 => exact TableRow.rdDigest3
    | rdDigest4 => exact TableRow.rdDigest4
  exact (hrow h).2

/-- Settles O20: `decode_encode` one way, and the two formats the other way. -/
theorem decodeAndEncodeAgree : Obligations.DecodeAndEncodeAgree := by
  refine ⟨decode_encode, fun e i h => ?_⟩
  cases e with
  | cmd c => exact encode_of_decodeCmd h
  | bus d v =>
    obtain ⟨hwf, hencode, -⟩ := decodeDesc_ok h
    exact ⟨hwf, hencode⟩

/-! ## Table words placed as the next transaction -/

/-- A transaction that decodes runs its instruction (R140). -/
theorem performTransaction_decoded {tr : Transaction} {i : Instr} (h : decodeTransaction tr = .ok i) (s : State) :
    performTransaction tr s = exec i s := by
  simp only [performTransaction, h]

/-- The transaction that presents an encoding runs the instruction the encoding decodes to (R70, R76, R141). -/
theorem performTransaction_toTransaction {e : Encoding} {i : Instr} (h : decode e = .ok i) (s : State) :
    performTransaction e.toTransaction s = exec i s := by
  cases e with
  | cmd c => exact exec_wrCmd_decoded h s
  | bus d v =>
    obtain ⟨-, -, hpresented⟩ := decodeDesc_ok h
    exact performTransaction_decoded hpresented s

/-- A table word that decodes has the bits of an encoding that decodes. -/
theorem decodeTableWord_some {nbits w : Nat} {i : Instr} (h : decodeTableWord nbits w = some i) :
    ∃ e, tableEncoding nbits w = some e ∧ decode e = .ok i := by
  unfold decodeTableWord at h
  split at h
  · cases h
  · split at h
    · cases h
      exact ⟨_, ‹_›, ‹_›⟩
    · cases h

/-- Settles O13: `step_transact`, and what performing a transaction that decodes is. -/
theorem stepRunsTheDecodedInstruction : Obligations.StepRunsTheDecodedInstruction :=
  fun _ _ _ _ hp hi => (step_transact hp).trans (performTransaction_decoded hi _)

/-- Settles O16: the word's encoding is presented by a transaction, which the step takes. -/
theorem placedTableWordRunsNext : Obligations.PlacedTableWordRunsNext := by
  intro s nbits w i h
  obtain ⟨e, he, hi⟩ := decodeTableWord_some h
  have hplaced : s.withFetchWord nbits w = offerFirst e.toTransaction s := by
    simp only [State.withFetchWord, offerTableWord, he]
  rw [hplaced]
  exact (step_transact (s := offerFirst e.toTransaction s) rfl).trans (performTransaction_toTransaction hi s)

/-- Settles O22: the decoder evaluated on each row's word. -/
theorem tableRowsDecodeToTheirInstructions : Obligations.TableRowsDecodeToTheirInstructions := by
  unfold Obligations.TableRowsDecodeToTheirInstructions
  decide

end Sys2Proof.Proofs
end

section
/-! PROOFS. What one step changes (spec 10_state.md, 20_memory.md, 41_register_access.md): the writers of each register,
the phase, the response, and the addresses of the window. -/

namespace Sys2Proof.Proofs

open Sys2Proof.Machine Sys2Proof.Laws

/-! ## The phase -/

theorem decodeCmd_eq_finish_iff (v : Word) : decodeCmd v = .finish ↔ v = 0x00000003 := by
  constructor
  · intro h
    have hv := encode_of_decodeCmd (c := v) (i := .finish) (congrArg Cmd.toInstr h)
    injection hv.2 with hv
    exact hv.symm
  · rintro rfl
    decide

/-- Only `INIT` and an accepted `FINISH` write the phase (R28). -/
theorem performTransaction_phase {tr : Transaction} {s t : State} (h : performTransaction tr s = .next t) :
    (tr = .write .word 0x00 0x00000001 ∧ t = initialized s) ∨
    (tr = .write .word 0x00 0x00000003 ∧ t = closed s) ∨ t.finished = s.finished := by
  obtain ⟨code, rfl⟩ | ⟨v, rfl, hd, rfl⟩ | ⟨v, nb, rfl, hd, -, -, -, rfl⟩ | ⟨v, rfl, hd, -, rfl⟩ | ⟨v, rfl, rfl⟩ |
    ⟨off, v, rfl, rfl⟩ := performTransaction_cases h
  · -- a rejection
    exact .inr (.inr (by simp))
  · -- `INIT`
    exact .inl ⟨by rw [(decodeCmd_eq_init_iff v).1 hd], rfl⟩
  · -- `UPDATE`
    exact .inr (.inr (by simp [appendBytes_frame]))
  · -- `FINISH`
    exact .inr (.inl ⟨by rw [(decodeCmd_eq_finish_iff v).1 hd], rfl⟩)
  · -- a write of `DATA`
    exact .inr (.inr rfl)
  · -- a read
    exact .inr (.inr rfl)

/-- Every `FINISH` leaves the phase `FINISHED`, the rejected one too (R28, R112). -/
theorem execFinish_finished {s t : State} (h : execFinish s = .next t) : t.finished = true := by
  obtain ⟨hf, rfl⟩ | ⟨-, rfl⟩ := execFinish_cases h
  · simp [hf]
  · rfl

/-- Settles O7: a step is a transaction, with the phase of `performTransaction_phase`, or a reset. -/
theorem phaseIsWrittenOnlyByFinishInitAndReset : Obligations.PhaseIsWrittenOnlyByFinishInitAndReset := by
  intro s t ev rest hp h
  obtain ⟨tr, rfl, h⟩ | ⟨hr, rfl⟩ := step_event_cases hp h
  · refine ⟨fun hs ht => ?_, fun hs ht => ?_, fun he => ?_, fun he => ?_⟩
    · obtain ⟨-, rfl⟩ | ⟨rfl, rfl⟩ | hsame := performTransaction_phase h
      · cases ht
      · exact ⟨rfl, rfl⟩
      · simp [hsame, hs] at ht
    · obtain ⟨rfl, -⟩ | ⟨-, rfl⟩ | hsame := performTransaction_phase h
      · exact .inl rfl
      · cases ht
      · simp [hsame, hs] at ht
    · cases he
      exact execFinish_finished h
    · obtain he | he := he
      · cases he
        injection h with h
        exact h ▸ rfl
      · cases he
  · refine ⟨fun _ (ht : false = true) => absurd ht (by decide), fun _ _ => .inr hr, fun he => ?_, fun _ => rfl⟩
    obtain rfl | ⟨tr, rfl⟩ := hr <;> cases he

/-! ## The writers of the other registers -/

/-- Settles O9: what each case of `performTransaction_cases` leaves as it was. -/
theorem registersChangeOnlyByTheirWriters : Obligations.RegistersChangeOnlyByTheirWriters := by
  intro s t tr rest hp h
  rw [step_transact hp] at h
  obtain ⟨code, rfl⟩ | ⟨v, rfl, hd, rfl⟩ | ⟨v, nb, rfl, hd, -, -, -, rfl⟩ | ⟨v, rfl, hd, -, rfl⟩ | ⟨v, rfl, rfl⟩ |
    ⟨off, v, rfl, rfl⟩ := performTransaction_cases h
  · -- a rejection
    simp
  · -- `INIT`
    exact ⟨fun hdata => absurd rfl hdata, fun _ => ⟨v, rfl, .inl hd⟩, fun _ => ⟨v, rfl, .inl hd⟩⟩
  · -- `UPDATE`
    exact ⟨fun hdata => absurd (by simp [appendBytes_frame]) hdata, fun _ => ⟨v, rfl, .inr ⟨nb, hd⟩⟩,
      fun _ => ⟨v, rfl, .inr (.inr ⟨nb, hd⟩)⟩⟩
  · -- `FINISH`
    exact ⟨fun hdata => absurd (by simp [pad_frame]) hdata, fun hbits => absurd (by simp [pad_frame]) hbits,
      fun _ => ⟨v, rfl, .inr (.inl hd)⟩⟩
  · -- a write of `DATA`
    exact ⟨fun _ => ⟨v, rfl⟩, by simp, by simp⟩
  · -- a read
    simp

/-! ## The response -/

/-- A transaction leaves the events behind it, and a response with read data exactly if it is a read (R51, R57). -/
theorem performTransaction_response {tr : Transaction} {s t : State} (h : performTransaction tr s = .next t) :
    t.pending = s.pending ∧
    ∃ d : Option Word, d.isSome = tr.isRead ∧ (t.response = some (.okay d) ∨ t.response = some (.error d)) := by
  obtain ⟨code, rfl⟩ | ⟨v, rfl, -, rfl⟩ | ⟨v, nb, rfl, -, -, -, -, rfl⟩ | ⟨v, rfl, -, -, rfl⟩ | ⟨v, rfl, rfl⟩ |
    ⟨off, v, rfl, rfl⟩ := performTransaction_cases h
  · -- a rejection
    exact ⟨rfl, rejectData tr.isRead, by cases tr <;> rfl, .inr rfl⟩
  · -- `INIT`
    exact ⟨rfl, none, rfl, .inl rfl⟩
  · -- `UPDATE`
    exact ⟨by simp [appendBytes_frame], none, rfl, .inl rfl⟩
  · -- `FINISH`
    exact ⟨by simp [pad_frame], none, rfl, .inl rfl⟩
  · -- a write of `DATA`
    exact ⟨rfl, none, rfl, .inl rfl⟩
  · -- a read
    exact ⟨rfl, some v, rfl, .inl rfl⟩

/-- Every transaction answers a next state (R140). -/
theorem performTransaction_total (tr : Transaction) (s : State) : ∃ t, performTransaction tr s = .next t := by
  obtain ⟨code, -, h⟩ | ⟨-, t, d, h, -⟩ := performTransaction_answers tr s
  · exact ⟨_, h⟩
  · exact ⟨t, h⟩

/-- Settles O14: an idle step, a transaction, or a reset. -/
theorem everyTransactionGetsOneResponse : Obligations.EveryTransactionGetsOneResponse := by
  intro s
  cases hp : s.pending with
  | nil => exact ⟨s, step_idle hp, by simp⟩
  | cons ev rest =>
    cases ev with
    | transact tr =>
      obtain ⟨t, ht⟩ := performTransaction_total tr { s with pending := rest }
      obtain ⟨hpending, hresponse⟩ := performTransaction_response ht
      refine ⟨t, (step_transact hp).trans ht, by simp, fun _ _ he => ?_, fun _ _ he => ?_⟩
      · cases he
        exact hpending
      · cases he
        exact hresponse
    | reset => exact ⟨_, step_reset_event hp (.inl rfl), by simp⟩
    | resetDuring tr => exact ⟨_, step_reset_event hp (.inr ⟨tr, rfl⟩), by simp⟩

/-! ## Addresses and codes -/

/-- An access reaches what the offset of its address says, if the master is admitted (R56, R209). -/
theorem memRead_eq (master addr : Nat) (size : Size) :
    memRead master addr size =
      if Config.masterAdmitted master then (windowOffset addr).map (.read size) else none := by
  unfold memRead routedOffset
  split <;> rfl

theorem memWrite_eq (master addr : Nat) (size : Size) (v : Word) :
    memWrite master addr size v =
      if Config.masterAdmitted master then (windowOffset addr).map (.write size · v) else none := by
  unfold memWrite routedOffset
  split <;> rfl

/-- Settles O11: the offset of an address inside the window, and outside it. -/
theorem windowCoversSixtyFourAddresses : Obligations.WindowCoversSixtyFourAddresses := by
  refine ⟨Nat.mul_mod_right 64 _, fun master off size v => ?_, fun master addr size v hout => ?_⟩
  · rw [memRead_eq, memWrite_eq, windowOffset_inside]
    exact ⟨rfl, rfl⟩
  · rw [memRead_eq, memWrite_eq, windowOffset_outside hout]
    exact ⟨rfl, rfl⟩

/-- Settles O28: the table of R200, code by code. -/
theorem errorCodesHaveTheirNumbers : Obligations.ErrorCodesHaveTheirNumbers := by
  refine ⟨rfl, rfl, rfl, rfl, rfl, rfl, rfl, fun c => ?_⟩
  cases c <;> decide

end Sys2Proof.Proofs
end

section
/-! PROOFS. The commands' frames (spec 40_commands.md, 41_register_access.md): what `UPDATE` and `FINISH` leave unchanged,
where they are rejected, and that a chunk's groups absorb the chunk. -/

namespace Sys2Proof.Proofs

open Sys2Proof.Machine Sys2Proof.Laws

/-! ## Commands carried by a write of `CMD` -/

/-- Settles O25: each word runs its command, in the state where it is accepted. -/
theorem commandWriteCompletes : Obligations.CommandWriteCompletes := by
  intro s
  refine ⟨⟨initialized s, rfl, rfl, rfl, rfl, rfl, rfl⟩, fun nb hnb hf hl => ?_, fun hf => ?_⟩
  · have hdecode : decodeCmd (cmdWord nb 0x2) = .update nb := by simp [decodeCmd_cmdWord, hnb]
    have hrun : exec (.wrCmd (cmdWord nb 0x2)) s = .next (updated nb s) :=
      (exec_wrCmd_decoded (congrArg Cmd.toInstr hdecode) s).trans (execUpdate_accepted nb s hnb hf hl)
    refine ⟨updated nb s, hrun, rfl, by simp [appendBytes_frame, hf], ?_, updated_fill nb s⟩
    rw [updated_bitcnt, bitcnt_add_toNat hl]
  · exact ⟨closed s, execFinish_accepted hf, rfl, rfl, by simp [pad_frame], by simp [pad_frame]⟩

/-! ## `FINISHED` -/

theorem execFinish_rejected {s : State} (hf : s.finished = true) :
    execFinish s = .next (reject .alreadyFinished false s) :=
  if_pos hf

/-- Settles O36: the phase decides before the length limit, and the rejection is one record update. -/
theorem updateAndFinishAreRejectedInFinished : Obligations.UpdateAndFinishAreRejectedInFinished := by
  intro s hf
  refine ⟨fun nb hnb => ?_, ?_⟩
  · exact (execUpdate_finished nb s hnb hf).trans (congrArg Host.Outcome.next (reject_eq _ false s))
  · exact (execFinish_rejected hf).trans (congrArg Host.Outcome.next (reject_eq _ false s))

/-- In `FINISHED` a transaction other than `INIT` writes at most `data`, the error record and the response (R116). -/
theorem performTransaction_finished {tr : Transaction} {s t : State} (hf : s.finished = true)
    (hinit : tr ≠ .write .word 0x00 0x00000001) (h : performTransaction tr s = .next t) :
    t.finished = true ∧ t.H = s.H ∧ t.bitcnt = s.bitcnt ∧ t.fill = s.fill ∧ t.buf = s.buf := by
  obtain ⟨code, rfl⟩ | ⟨v, rfl, hd, -⟩ | ⟨v, nb, -, -, -, habsorbing, -⟩ | ⟨v, -, -, habsorbing, -⟩ | ⟨v, -, rfl⟩ |
    ⟨off, v, -, rfl⟩ := performTransaction_cases h
  · -- a rejection
    simp [hf]
  · -- `INIT`
    exact absurd (by rw [(decodeCmd_eq_init_iff v).1 hd]) hinit
  · -- `UPDATE`
    simp [hf] at habsorbing
  · -- `FINISH`
    simp [hf] at habsorbing
  · -- a write of `DATA`
    exact ⟨hf, rfl, rfl, rfl, rfl⟩
  · -- a read
    exact ⟨hf, rfl, rfl, rfl, rfl⟩

/-- Settles O41: the digest registers stay, and the digest reads return them. -/
theorem finishedDigestIsReadOnly : Obligations.FinishedDigestIsReadOnly := by
  intro s t tr rest hf hp hinit h
  rw [step_transact hp] at h
  obtain ⟨htf, hH, hbits, hfill, hbuf⟩ := performTransaction_finished (s := { s with pending := rest }) hf hinit h
  refine ⟨htf, hH, hbits, hfill, hbuf, fun k v hread => ?_⟩
  rw [exec_rdDigest, readDigest_finished k hf, okayRead_eq] at hread
  rw [exec_rdDigest, readDigest_finished k htf, okayRead_eq, hH]
  have hv : s.H[k] = v := by simpa using hread
  rw [← hv]

/-! ## Frames -/

/-- Settles O37: a rejection writes only the error record, and absorbing the bytes of `data` only their positions. -/
theorem updateFrame : Obligations.UpdateFrame := by
  intro s t nb h
  obtain ⟨code, rfl⟩ | ⟨-, -, -, rfl⟩ := execUpdate_cases h
  · simp
  · obtain ⟨-, hfinished, herr, hcode, hdata, -, hpending⟩ := appendBytes_frame (updateBytes s.data nb.toNat)
      (setBitcnt (s.bitcnt + BitVec.ofNat 64 (8 * nb.toNat)) s)
    refine ⟨hdata, hfinished, hpending, fun _ => ⟨herr, hcode⟩, updated_H_room, fun i hi => ?_⟩
    exact appendBytes_buf (updateBytes s.data nb.toNat) (setBitcnt _ s) i (by rwa [updateBytes_length])

/-- Settles O40: a rejection writes only the error record, and the padding controller none of these. -/
theorem finishFrame : Obligations.FinishFrame := by
  intro s t h
  obtain ⟨hf, rfl⟩ | ⟨-, rfl⟩ := execFinish_cases h
  · simp [hf]
  · simp [pad_frame]

/-! ## Compressions -/

/-- Absorbing bytes draws one free value for each block they fill (R106). -/
theorem appendBytes_draws (xs : List Byte) (s : State) :
    (appendBytes xs s).draws = s.draws + (s.fill.val + xs.length) / 64 := by
  induction xs generalizing s with
  | nil => simp [appendBytes]
  | cons x xs ih =>
    rw [appendBytes, ih, appendByte_fill, List.length_cons]
    obtain ⟨hroom, e⟩ | ⟨hfull, e⟩ := appendByte_cases x s
    · have hdraws : (appendByte x s).draws = s.draws := by rw [e]; rfl
      omega
    · have hdraws : (appendByte x s).draws = s.draws + 1 := by rw [e]; rfl
      omega

theorem updated_draws (nb : BitVec 3) (s : State) :
    (updated nb s).draws = s.draws + (s.fill.val + nb.toNat) / 64 :=
  (appendBytes_draws _ _).trans (by rw [updateBytes_length]; rfl)

/-- `FINISH` draws one free value for each of its blocks (R113, R114). -/
theorem closed_draws (s : State) : (closed s).draws = s.draws + if s.fill.val ≤ 55 then 1 else 2 := by
  split_ifs with h
  · simp [pad_one_block s h]
  · simp [pad_two_blocks s (by omega)]

/-- Settles O39: the draws counted by `updated_draws` and `closed_draws`. -/
theorem commandsCompressAtMostTwice : Obligations.CommandsCompressAtMostTwice := by
  intro s hf
  refine ⟨fun nb hnb hl => ⟨updated nb s, execUpdate_accepted nb s hnb hf hl, fun hroom => ?_, fun hfull => ?_⟩,
    closed s, execFinish_accepted hf, fun hone => ?_, fun htwo => ?_⟩
  · obtain ⟨-, -, hdraws, hdatapath, -⟩ := appendBytes_room (updateBytes s.data nb.toNat)
      (setBitcnt (s.bitcnt + BitVec.ofNat 64 (8 * nb.toNat)) s) (by rw [updateBytes_length]; exact hroom)
    exact ⟨hdraws, hdatapath⟩
  · have hlt := s.fill.isLt
    rw [updated_draws]
    omega
  · rw [closed_draws, if_pos hone]
  · rw [closed_draws, if_neg (by omega)]

/-! ## Chunks and the padded message -/

/-- `ABSORBSTR` splits a chunk into groups of at most four bytes, which joined are the chunk (R81). -/
theorem groupsOfFour_split : ∀ c : List Byte,
    (groupsOfFour c).flatten = c ∧ ∀ g ∈ groupsOfFour c, g.length ≤ 4
  | _ :: _ :: _ :: _ :: rest => by simpa [groupsOfFour] using groupsOfFour_split rest
  | [] => by simp [groupsOfFour]
  | [_] => by simp [groupsOfFour]
  | [_, _] => by simp [groupsOfFour]
  | [_, _, _] => by simp [groupsOfFour]

/-- Settles O43: the groups absorb the chunk, which folds the whole blocks of the old tail and the chunk. -/
theorem absorbStrAbsorbsTheChunk : Obligations.AbsorbStrAbsorbsTheChunk := by
  intro s c hf hl whole
  obtain ⟨hjoin, hshort⟩ := groupsOfFour_split c
  obtain ⟨v, r, hrun⟩ := run_groups (groupsOfFour c) hshort hf (by rw [hjoin]; exact hl) []
  rw [hjoin, ← offering_eq] at hrun
  obtain ⟨-, hfinished, herr, hcode, -⟩ := appendBytes_frame c s
  obtain ⟨hH, -, htail⟩ := appendBytes_spec c s
  exact ⟨_, hrun, rfl, herr, hcode, hfinished.trans hf, bitcnt_add_toNat hl, hH, appendBytes_fill c s, htail⟩

/-- Settles O42: `zeroPadding` fills up to 56 bytes modulo 64. -/
theorem paddedMessageIsWholeBlocks : Obligations.PaddedMessageIsWholeBlocks := by
  intro m
  have hlen : (padded m).length = m.length + 1 + zeroPadding m.length + 8 := by simp [padded]; omega
  rw [hlen]
  unfold zeroPadding Int.ModEq
  exact ⟨by omega, by omega, rfl, by omega⟩

end Sys2Proof.Proofs
end

section
/-! PROOFS. Independence and timing (spec 20_memory.md R57, 60_exceptions.md R202, 70_reset_and_hazards.md R240): no
transaction reads what comes behind it or, but for `STATUS`, the error record, and the cycle counts follow the
compressions. -/

namespace Sys2Proof.Proofs

open Sys2Proof.Machine Sys2Proof.Laws

/-! ## The error record and the events to come -/

/-- `o` is an answer in `s`, and `o'` the same one, response included, where the error record is `f` and `c` and `p` is
to come: it differs in its own error record at most, and not even there if `f` and `c` are those of `s`. -/
def AnswersAlike (f : Bool) (c : ErrCode) (p : List HostEvent) (s : State)
    (o o' : Host.Outcome State Fault Refusal) : Prop :=
  ∃ t f' c', o = .next t ∧ o' = .next (withOuter f' c' t.response p t) ∧
    (f = s.err → c = s.errcode → f' = t.err ∧ c' = t.errcode)

section

variable {f : Bool} {c : ErrCode} {r : Option Response} {p : List HostEvent} {s : State}

theorem reject_answersAlike (code : ErrCode) (isRead : Bool) :
    AnswersAlike f c p s (.next (reject code isRead s)) (.next (reject code isRead (withOuter f c r p s))) := by
  refine ⟨_, true, if f then c else code, rfl, by rw [reject_eq, reject_eq]; rfl, ?_⟩
  rintro rfl rfl
  simp

/-- An answer that keeps the error record. -/
theorem respond_answersAlike {t : State} (x : Response) (herr : t.err = s.err) (hcode : t.errcode = s.errcode) :
    AnswersAlike f c p s (.next (respond x t)) (.next (respond x (withOuter f c r p t))) :=
  ⟨respond x t, f, c, rfl, rfl, fun hf hc => ⟨hf.trans herr.symm, hc.trans hcode.symm⟩⟩

theorem execUpdate_withOuter (nb : BitVec 3) :
    AnswersAlike f c p s (execUpdate nb s) (execUpdate nb (withOuter f c r p s)) := by
  have hf : (withOuter f c r p s).finished = s.finished := rfl
  have hbits : (withOuter f c r p s).bitcnt = s.bitcnt := rfl
  have hdata : (withOuter f c r p s).data = s.data := rfl
  unfold execUpdate
  rw [hf, hbits, hdata, setBitcnt_withOuter, appendBytes_withOuter]
  split_ifs
  · exact reject_answersAlike _ _
  · exact reject_answersAlike _ _
  · exact reject_answersAlike _ _
  · obtain ⟨-, -, herr, hcode, -⟩ := appendBytes_frame (updateBytes s.data nb.toNat)
      (setBitcnt (s.bitcnt + BitVec.ofNat 64 (8 * nb.toNat)) s)
    exact respond_answersAlike _ herr hcode

theorem execFinish_withOuter :
    AnswersAlike f c p s (execFinish s) (execFinish (withOuter f c r p s)) := by
  by_cases hf : s.finished = true
  · rw [execFinish_rejected hf, execFinish_rejected (s := withOuter f c r p s) hf]
    exact reject_answersAlike _ _
  · rw [Bool.not_eq_true] at hf
    rw [execFinish_accepted hf, execFinish_accepted (s := withOuter f c r p s) hf, closed, closed, pad_withOuter]
    obtain ⟨-, -, herr, hcode, -⟩ := pad_frame s
    exact respond_answersAlike (t := setFinished true (pad s)) _ herr hcode

theorem readDigest_withOuter (k : Fin 5) :
    AnswersAlike f c p s (.next (readDigest k s)) (.next (readDigest k (withOuter f c r p s))) := by
  by_cases hf : s.finished = true
  · rw [readDigest_finished k hf, readDigest_finished k (s := withOuter f c r p s) hf]
    exact respond_answersAlike _ rfl rfl
  · rw [Bool.not_eq_true] at hf
    rw [readDigest_absorbing k hf, readDigest_absorbing k (s := withOuter f c r p s) hf]
    exact reject_answersAlike _ _

theorem execInit_withOuter : AnswersAlike f c p s (execInit s) (execInit (withOuter f c r p s)) :=
  ⟨initialized s, false, .none, rfl, rfl, fun _ _ => ⟨rfl, rfl⟩⟩

/-- No instruction but the `STATUS` read looks at the error record, and none at the events to come (R57, R202). -/
theorem exec_withOuter {i : Instr} (hi : i ≠ .rdStatus) :
    AnswersAlike f c p s (exec i s) (exec i (withOuter f c r p s)) := by
  cases i with
  | init => exact execInit_withOuter
  | update nb => exact execUpdate_withOuter nb
  | finish => exact execFinish_withOuter
  | wrCmd v =>
    simp only [exec, execWrCmd]
    cases decodeCmd v with
    | init => exact execInit_withOuter
    | update nb => exact execUpdate_withOuter nb
    | finish => exact execFinish_withOuter
    | illegal => exact reject_answersAlike _ _
  | wrData v => exact respond_answersAlike (t := setData v s) _ rfl rfl
  | rdStatus => exact absurd rfl hi
  | rdData | rdBitcntLo | rdBitcntHi => exact respond_answersAlike _ rfl rfl
  | rdDigest0 | rdDigest1 | rdDigest2 | rdDigest3 | rdDigest4 => exact readDigest_withOuter _

/-- Only the read of offset `0x08` is the `STATUS` read (R77). -/
theorem decodeTransaction_eq_rdStatus {tr : Transaction} (h : decodeTransaction tr = .ok .rdStatus) :
    tr = .read .word 0x08 := by
  cases tr with
  | read size off =>
    cases size with
    | word => revert off; decide
    | byte | half | reserved =>
      rw [decodeTransaction_not_allowed rfl] at h
      cases h
  | write size off v =>
    rw [decodeTransaction_write] at h
    split_ifs at h <;> simp at h

variable (f c r p s) in
/-- A transaction other than the `STATUS` read answers alike, whatever the error record and the events to come (R57,
R202). -/
theorem performTransaction_withOuter {tr : Transaction} (htr : tr ≠ .read .word 0x08) :
    AnswersAlike f c p s (performTransaction tr s) (performTransaction tr (withOuter f c r p s)) := by
  unfold performTransaction
  cases hd : decodeTransaction tr with
  | ok i => exact exec_withOuter fun hi => htr (decodeTransaction_eq_rdStatus (hi ▸ hd))
  | error code => exact reject_answersAlike code tr.isRead

end

/-- A step with more events behind the transaction it takes (R57). -/
theorem performTransaction_later {tr : Transaction} {s t : State} (h : performTransaction tr s = .next t)
    (more : List HostEvent) :
    performTransaction tr { s with pending := s.pending ++ more } = .next { t with pending := t.pending ++ more } := by
  obtain ⟨hpending, -⟩ := performTransaction_response h
  by_cases htr : tr = .read .word 0x08
  · subst htr
    injection h with h
    exact h ▸ rfl
  · obtain ⟨t', f', c', ht, hu, hkeep⟩ :=
      performTransaction_withOuter s.err s.errcode s.response (s.pending ++ more) s htr
    injection h.symm.trans ht with h
    subst h
    obtain ⟨rfl, rfl⟩ := hkeep rfl rfl
    rw [hpending]
    exact hu

/-- Settles O15: neither a transaction nor a reset looks at the events behind it. -/
theorem laterEventsAffectNoEarlierStep : Obligations.LaterEventsAffectNoEarlierStep := by
  intro s t more hne h
  obtain ⟨ev, rest, hp⟩ := List.exists_cons_of_ne_nil hne
  have hp' : s.pending ++ more = ev :: (rest ++ more) := by rw [hp, List.cons_append]
  obtain ⟨tr, rfl, h⟩ | ⟨hr, rfl⟩ := step_event_cases hp h
  · exact (step_transact (s := { s with pending := s.pending ++ more }) hp').trans (performTransaction_later h more)
  · exact step_reset_event (s := { s with pending := s.pending ++ more }) hp' hr

/-- Settles O47: a rejection is `reject`, and what another error record changes is `performTransaction_withOuter`. -/
theorem rejectionsChangeAndBlockNothingElse : Obligations.RejectionsChangeAndBlockNothingElse := by
  refine ⟨fun s t tr rest d hp h ht => ?_, fun s t tr rest flag code hp h => ?_⟩
  · rw [step_transact hp] at h
    obtain ⟨code, -, rfl⟩ | ⟨-, d', hok⟩ := performTransaction_reject_or_accept h
    · rw [reject_response] at ht
      injection ht with ht
      injection ht with ht
      refine ⟨ht.symm, by simp, fun herr => ?_, ⟨if s.err then s.errcode else code, ?_⟩, rfl, rfl, rfl⟩
      · simp [recordError, herr]
      · rw [reject_eq]
    · simp [hok] at ht
  · rw [step_transact hp] at h
    obtain ⟨hpending, -⟩ := performTransaction_response h
    rw [step_transact (s := { s with err := flag, errcode := code }) hp]
    by_cases htr : tr = .read .word 0x08
    · subst htr
      injection h with h
      subst h
      exact ⟨_, flag, code, rfl, rfl, fun hne => absurd rfl hne⟩
    · obtain ⟨t', f', c', ht, hu, -⟩ :=
        performTransaction_withOuter flag code s.response rest { s with pending := rest } htr
      injection h.symm.trans ht with h
      subst h
      refine ⟨_, f', c', hu, ?_, fun _ => rfl⟩
      simpa [withOuter] using hpending.symm

/-! ## Cycles -/

/-- Only the write of `CMD` decodes to `WR CMD` (R77). -/
theorem desc_of_decodeTransaction_wrCmd {tr : Transaction} {v : Word} (h : decodeTransaction tr = .ok (.wrCmd v)) :
    tr.desc = 0x180 := by
  obtain ⟨-, hencode, -⟩ := decodeDesc_ok h
  injection hencode with hdesc
  exact hdesc.symm

/-- Every transaction but a write of `CMD` takes one cycle (R240). -/
theorem transactionCycles_other {tr : Transaction} (htr : tr.desc ≠ 0x180) (s : State) : transactionCycles tr s = 1 := by
  unfold transactionCycles
  split
  · exact absurd (desc_of_decodeTransaction_wrCmd ‹_›) htr
  · rfl
  · rfl

theorem decodeTransaction_wrCmd (v : Word) : decodeTransaction (.write .word 0x00 v) = .ok (.wrCmd v) := rfl

section

variable {v : Word} {nb : BitVec 3} {s : State}

theorem transactionCycles_update (hd : decodeCmd v = .update nb) :
    transactionCycles (.write .word 0x00 v) s = updateCycles nb s := by
  simp only [transactionCycles, decodeTransaction_wrCmd, hd]

theorem transactionCycles_finish (hd : decodeCmd v = .finish) :
    transactionCycles (.write .word 0x00 v) s = finishCycles s := by
  simp only [transactionCycles, decodeTransaction_wrCmd, hd]

theorem updateCycles_accepted (hnb : nb.toNat ≤ 4) (hf : s.finished = false)
    (hl : s.bitcnt.toNat + 8 * nb.toNat ≤ 2 ^ 64 - 1) :
    updateCycles nb s = 1 + (s.fill.val + nb.toNat) / 64 * Config.tComp := by
  have hlt := s.fill.isLt
  have hlegal := (nbLegal_iff nb).2 hnb
  have hfits : lengthOverflows s.bitcnt nb.toNat = false := decide_eq_false (by omega)
  rw [updateCycles, if_neg (by simp [hlegal, hf, hfits])]
  split_ifs with hfull
  · rw [show (s.fill.val + nb.toNat) / 64 = 1 by omega, Nat.one_mul]
  · rw [show (s.fill.val + nb.toNat) / 64 = 0 by omega, Nat.zero_mul]

theorem finishCycles_accepted (hf : s.finished = false) :
    finishCycles s = 1 + (if s.fill.val ≤ 55 then 1 else 2) * Config.tComp := by
  rw [finishCycles, if_neg (by simp [hf])]
  split_ifs <;> simp

/-- A rejected command takes one cycle (R240). -/
theorem transactionCycles_commandRejected {code : ErrCode} (h : commandRejection (decodeCmd v) s.toEngine = some code) :
    transactionCycles (.write .word 0x00 v) s = 1 := by
  cases hd : decodeCmd v with
  | init | illegal => simp only [transactionCycles, decodeTransaction_wrCmd, hd]
  | update nb =>
    rw [transactionCycles_update hd]
    refine if_pos (.inr ?_)
    rw [hd, commandRejection] at h
    split_ifs at h with hf hl
    · exact .inl hf
    · exact .inr (decide_eq_true hl)
  | finish =>
    rw [transactionCycles_finish hd]
    refine if_pos ?_
    rw [hd, commandRejection] at h
    split_ifs at h with hf
    exact hf

end

/-- A rejected transaction takes one cycle (R240). -/
theorem transactionCycles_rejected {tr : Transaction} {s : State} {code : ErrCode}
    (h : rejection tr s.toEngine = some code) : transactionCycles tr s = 1 := by
  by_cases htr : tr.desc = 0x180
  · cases tr with
    | read size off => exact absurd htr (read_desc_ne_wrCmd size off)
    | write size off v =>
      obtain ⟨rfl, rfl⟩ := (write_desc_wrCmd size off v).1 htr
      exact transactionCycles_commandRejected ((rejection_wrCmd v _).symm.trans h)
  · exact transactionCycles_other htr s

/-- The cycles of a transaction other than `INIT` count the free values it draws, one for each compression (R240). -/
theorem performTransaction_cycles {tr : Transaction} {s t : State} (hinit : tr ≠ .write .word 0x00 0x00000001)
    (h : performTransaction tr s = .next t) :
    ∃ k, t.draws = s.draws + k ∧ transactionCycles tr s = 1 + k * Config.tComp := by
  obtain ⟨code, hr, rfl⟩ | ⟨-, d, ht⟩ := performTransaction_reject_or_accept h
  · exact ⟨0, rfl, by rw [transactionCycles_rejected hr, Nat.zero_mul]⟩
  obtain ⟨code, rfl⟩ | ⟨v, rfl, hd, rfl⟩ | ⟨v, nb, rfl, hd, hnb, hf, hl, rfl⟩ | ⟨v, rfl, hd, hf, rfl⟩ | ⟨v, rfl, rfl⟩ |
    ⟨off, v, rfl, rfl⟩ := performTransaction_cases h
  · -- a rejection
    simp at ht
  · -- `INIT`
    exact absurd (by rw [(decodeCmd_eq_init_iff v).1 hd]) hinit
  · -- `UPDATE`
    exact ⟨_, updated_draws nb s, by rw [transactionCycles_update hd, updateCycles_accepted hnb hf hl]⟩
  · -- `FINISH`
    exact ⟨_, closed_draws s, by rw [transactionCycles_finish hd, finishCycles_accepted hf]⟩
  · -- a write of `DATA`
    exact ⟨0, rfl, by rw [Nat.zero_mul]; rfl⟩
  · -- a read
    exact ⟨0, rfl, by rw [transactionCycles_other (read_desc_ne_wrCmd _ _), Nat.zero_mul]⟩

/-- Settles O53: the draws of the step are the compressions counted. -/
theorem cyclesCountTheCompressions : Obligations.CyclesCountTheCompressions := by
  refine ⟨fun s => rfl, fun s t tr rest hp hinit h => ?_⟩
  rw [step_transact hp] at h
  obtain ⟨k, hdraws, hcycles⟩ := performTransaction_cycles hinit h
  have hdraws : t.draws = s.draws + k := hdraws
  refine ⟨by omega, ?_⟩
  rw [hdraws, Nat.add_sub_cancel_left]
  exact hcycles

end Sys2Proof.Proofs
end
